-- ==== Sys2Proof/Word.lean ====
section
/-! DEFINITION. Word types of the engine (00_scope.md R5, R7): bytes, 32-bit words, step codes, and the
groups of them the spec names (four-word register arrays, the sixteen-word message buffer, Str32). -/

namespace Sys2Proof

/-- `u8` (R7). -/
abbrev Byte := BitVec 8

/-- `u32` (R7): every datapath value is an unsigned 32-bit word (R136). -/
abbrev Word := BitVec 32

/-- A step code `SC[6:0]` (30_encoding.md R60). -/
abbrev StepCode := BitVec 7

/-- An array of exactly four words: `H[0..3]` and `W[0..3]` (10_state.md R11, R12). Field `a` is element 0,
`b` element 1, `c` element 2, `d` element 3; for `W` these are the document's A, B, C, D, for `H` they
are `H0..H3`. -/
structure Quad where
  a : Word
  b : Word
  c : Word
  d : Word
  deriving DecidableEq, Repr, Inhabited

/-- Sixteen words: the message buffer `M[0..15]` and the words of one chunk (R13, R111). -/
abbrev Block := Vector Word 16

/-- `Str32`: a string of exactly 32 ASCII characters, held as its ASCII bytes in string order
(00_scope.md section 7; 45_digest_formatter.md R181). -/
abbrev Str32 := Vector Byte 32

end Sys2Proof
end

