-- ==== Sys2Proof/Syntax.lean ====
section
/-! DEFINITION. The nine operations of the opcode map (30_encoding.md R62), the round families (R61) and the
front end's two modes (R72). -/

namespace Sys2Proof

/-- Round family, the field `fam = SC[5:4]`: 0 = F, 1 = G, 2 = H, 3 = I (R61, 43_round_engine.md R121). -/
inductive Family where
  | F | G | H | I
  deriving DecidableEq, Repr, Inhabited

/-- The front end's mode selector (R72). -/
inductive Mode where
  | text | hex
  deriving DecidableEq, Repr, Inhabited

/-- One constructor per row of the opcode table. The round operations carry the field `i = SC[5:0]` of their
step code, the round index (R61); the listing syntax writes it as their operand (R74). Nothing else is encoded:
every operand is selected by the sequencer state (R65). -/
inductive Instr where
  | pre
  | cst
  | cen
  | don
  | hlt
  | rndF (i : BitVec 6)
  | rndG (i : BitVec 6)
  | rndH (i : BitVec 6)
  | rndI (i : BitVec 6)
  deriving DecidableEq, Repr, Inhabited

end Sys2Proof
end

