-- ==== Sys2Proof/WellFormed.lean ====
section
/-! DEFINITION. Well-formed operations: "The family suffix must agree with `i` (`RND.G 3` is ill-formed)"
(30_encoding.md R74), by the ranges of R62 and 43_round_engine.md R121. -/

namespace Sys2Proof

/-- The round index lies among the sixteen rounds of the family, `i div 16 = fam` (R61). -/
def Family.owns (fam : Family) (i : BitVec 6) : Bool :=
  match fam with
  | .F => i.toNat / 16 == 0
  | .G => i.toNat / 16 == 1
  | .H => i.toNat / 16 == 2
  | .I => i.toNat / 16 == 3

/-- The check of R74 on an operation. The control operations have no operand to check. -/
def Instr.wellFormed : Instr → Bool
  | .pre => true
  | .cst => true
  | .cen => true
  | .don => true
  | .hlt => true
  | .rndF i => Family.owns .F i
  | .rndG i => Family.owns .G i
  | .rndH i => Family.owns .H i
  | .rndI i => Family.owns .I i

/-- `Instr.wellFormed` as a proposition. -/
abbrev Instr.WellFormed (i : Instr) : Prop := i.wellFormed = true

end Sys2Proof
end

