-- ==== Sys2Proof/Decode.lean ====
section
/-! DEFINITION. The step code's decoder and encoder, both from the opcode map of 30_encoding.md R62, total over the
7-bit step code; reserved codes are rejected by name (R63, decision D19). -/

namespace Sys2Proof

/-- One row of the opcode map R62: `SC & mask = match` selects the row. -/
structure OpcodeRow where
  mnemonic : String
  pattern : StepCode
  mask : StepCode
  deriving DecidableEq, Repr

/-- The opcode map, R62, row by row. -/
def rowPre : OpcodeRow := ⟨"PRE", 0x00#7, 0x7F#7⟩
def rowCst : OpcodeRow := ⟨"CST", 0x01#7, 0x7F#7⟩
def rowCen : OpcodeRow := ⟨"CEN", 0x02#7, 0x7F#7⟩
def rowDon : OpcodeRow := ⟨"DON", 0x03#7, 0x7F#7⟩
def rowHlt : OpcodeRow := ⟨"HLT", 0x04#7, 0x7F#7⟩
def rowRndF : OpcodeRow := ⟨"RND.F", 0x40#7, 0x70#7⟩
def rowRndG : OpcodeRow := ⟨"RND.G", 0x50#7, 0x70#7⟩
def rowRndH : OpcodeRow := ⟨"RND.H", 0x60#7, 0x70#7⟩
def rowRndI : OpcodeRow := ⟨"RND.I", 0x70#7, 0x70#7⟩

/-- The opcode map as a list. -/
def opcodeMap : List OpcodeRow :=
  [rowPre, rowCst, rowCen, rowDon, rowHlt, rowRndF, rowRndG, rowRndH, rowRndI]

/-- The row's test on a step code (R62). -/
def OpcodeRow.selects (r : OpcodeRow) (sc : StepCode) : Bool := sc &&& r.mask == r.pattern

/-- Why a step code has no operation. -/
inductive DecodeError where
  /-- Step codes 0x05..0x3F: "must map a reserved code to a refusal" (R63). Safe: the sequencer produces none. -/
  | reservedStepCode (sc : StepCode)
  deriving DecidableEq, Repr

/-- The round index field `i = SC[5:0]` of a round step code (R61). -/
def roundField (sc : StepCode) : BitVec 6 := sc.extractLsb' 0 6

/-- The decoder: the operation of the row that the step code selects. -/
def decode (sc : StepCode) : Except DecodeError Instr :=
  if rowPre.selects sc then .ok .pre
  else if rowCst.selects sc then .ok .cst
  else if rowCen.selects sc then .ok .cen
  else if rowDon.selects sc then .ok .don
  else if rowHlt.selects sc then .ok .hlt
  else if rowRndF.selects sc then .ok (.rndF (roundField sc))
  else if rowRndG.selects sc then .ok (.rndG (roundField sc))
  else if rowRndH.selects sc then .ok (.rndH (roundField sc))
  else if rowRndI.selects sc then .ok (.rndI (roundField sc))
  else .error (.reservedStepCode sc)

/-- The step code of a round operation: bit 6 is `RND = 1` and `SC[5:0] = i` (R60, R61). -/
def roundCode (i : BitVec 6) : StepCode := 1#1 ++ i

/-- The encoder. Of an ill-formed round operation it gives the code of the round index, which is another
family's. -/
def encode : Instr → StepCode
  | .pre => 0x00#7
  | .cst => 0x01#7
  | .cen => 0x02#7
  | .don => 0x03#7
  | .hlt => 0x04#7
  | .rndF i => roundCode i
  | .rndG i => roundCode i
  | .rndH i => roundCode i
  | .rndI i => roundCode i

/-- The row of the opcode map an operation belongs to. -/
def Instr.row : Instr → OpcodeRow
  | .pre => rowPre
  | .cst => rowCst
  | .cen => rowCen
  | .don => rowDon
  | .hlt => rowHlt
  | .rndF _ => rowRndF
  | .rndG _ => rowRndG
  | .rndH _ => rowRndH
  | .rndI _ => rowRndI

/-- The operation the decoder reads from the word `w` of `nbits` bits as spec/opcode_table.json numbers them. A step
code is 7 bits and there is no other length (R60): a word with a bit above bit 6 is no step code. -/
def decodeTableWord (nbits w : Nat) : Option Instr :=
  let v := w % 2 ^ nbits
  if v < 2 ^ 7 then
    match decode (BitVec.ofNat 7 v) with
    | .ok i => some i
    | .error _ => none
  else none

/-- The mode selector's encoding: 0 = text, 1 = hex, any other value is no mode (R72, D26). -/
def Mode.decode : Nat → Option Mode
  | 0 => some .text
  | 1 => some .hex
  | _ => none

/-- The number of a mode (R72). -/
def Mode.encode : Mode → Nat
  | .text => 0
  | .hex => 1

end Sys2Proof
end

