-- ==== Sys2Proof/Machine/Bytes.lean ====
section
/-! DEFINITION. Bytes and words: little-endian packing (00_scope.md R7, 20_memory.md R45) and hexadecimal digits (R180,
R93). -/

namespace Sys2Proof.Machine

/-- `LEbytes_n(v)`: the `n` bytes `(v div 2^(8k)) mod 256`, least significant first (R7). -/
def leBytes : Nat → Nat → List Byte
  | 0, _ => []
  | n + 1, v => BitVec.ofNat 8 (v % 256) :: leBytes n (v / 256)

/-- The value of bytes taken little-endian: the inverse of `leBytes`. -/
def leValue : List Byte → Nat
  | [] => 0
  | b :: bs => b.toNat + 256 * leValue bs

/-- `LE32(b0, b1, b2, b3) = b0 + 2^8·b1 + 2^16·b2 + 2^24·b3` (R7). -/
def le32 (b0 b1 b2 b3 : Byte) : Word :=
  BitVec.ofNat 32 (b0.toNat + 2 ^ 8 * b1.toNat + 2 ^ 16 * b2.toNat + 2 ^ 24 * b3.toNat)

/-- `LEbytes_4` of a word (R7). -/
def wordBytes (w : Word) : List Byte := leBytes 4 w.toNat

/-- Four words as sixteen bytes, each word little-endian, in index order (45_digest_formatter.md R180). -/
def quadBytes (q : Quad) : List Byte :=
  wordBytes q.a ++ wordBytes q.b ++ wordBytes q.c ++ wordBytes q.d

/-- The ASCII codes of "0123456789abcdef" (R180). -/
def hexDigitTable : Vector Byte 16 :=
  #v[0x30, 0x31, 0x32, 0x33, 0x34, 0x35, 0x36, 0x37, 0x38, 0x39, 0x61, 0x62, 0x63, 0x64, 0x65, 0x66]

/-- `hexdigit(v)`, `0 ≤ v ≤ 15` (R180). -/
def hexDigit (v : BitVec 4) : Byte := hexDigitTable[v.toNat]'v.isLt

/-- A byte as two hex digits, high nibble first (R180). -/
def hexPair (b : Byte) : List Byte :=
  [hexDigit (BitVec.ofNat 4 (b.toNat / 16)), hexDigit (BitVec.ofNat 4 (b.toNat % 16))]

/-- The ASCII bytes of a string of ASCII characters. -/
def asciiOf (s : String) : List Byte := s.toList.map fun ch => BitVec.ofNat 8 ch.toNat

/-- The code points of a string. -/
def codePoints (s : String) : List Nat := s.toList.map Char.toNat

/-- `hv` (40_input_frontend.md R93) on a code point: `0..9`, `a..f`, `A..F`; `none` for a character outside
`[0-9a-fA-F]` (R92). -/
def hexValue (u : Nat) : Option Nat :=
  if 0x30 ≤ u ∧ u ≤ 0x39 then some (u - 0x30)
  else if 0x61 ≤ u ∧ u ≤ 0x66 then some (u - 0x61 + 10)
  else if 0x41 ≤ u ∧ u ≤ 0x46 then some (u - 0x41 + 10)
  else none

end Sys2Proof.Machine
end

