-- ==== Sys2Proof/Machine/Digest.lean ====
section
/-! DEFINITION. The Digest Formatter `Fmt` (45_digest_formatter.md R180 to R183) and the parser its round-trip law
speaks of (R184). -/

namespace Sys2Proof.Machine

/-- The characters of `Fmt(h0, h1, h2, h3)`: every byte of the sixteen as two lowercase hex digits (R180). -/
def fmtChars (q : Quad) : List Byte := (quadBytes q).flatMap hexPair

/-- "its length is exactly 32" (R181). -/
theorem fmtChars_length (q : Quad) : (fmtChars q).length = 32 := rfl

/-- `Fmt(h0, h1, h2, h3)` (R180). -/
def fmt (q : Quad) : Str32 := ⟨⟨fmtChars q⟩, fmtChars_length q⟩

/-- Two hex digits to a byte, high nibble first (R184); `none` where a character is no hex digit. R184 gives only the law on the
image of `Fmt`. What is parsed outside it is the model's: DESIGN CHOICE (safe), log entry 23: upper-case `A` to `F` count as digits
(the front end's `hexValue`), any other character makes the string no digest. -/
def parsePairs : List Byte → Option (List Byte)
  | [] => some []
  | [_] => none
  | x :: y :: rest =>
    match hexValue x.toNat, hexValue y.toNat, parsePairs rest with
    | some hi, some lo, some bs => some (BitVec.ofNat 8 (16 * hi + lo) :: bs)
    | _, _, _ => none

/-- `Parse` (R184): two hex digits per byte, four bytes per word, `LE32`. It is no part of the engine; the law
`Parse(Fmt(h)) = h` needs it. -/
def parseDigest (s : Str32) : Option Quad :=
  match parsePairs s.toList with
  | some [b0, b1, b2, b3, b4, b5, b6, b7, b8, b9, b10, b11, b12, b13, b14, b15] =>
    some ⟨le32 b0 b1 b2 b3, le32 b4 b5 b6 b7, le32 b8 b9 b10 b11, le32 b12 b13 b14 b15⟩
  | _ => none

end Sys2Proof.Machine
end

