-- ==== Sys2Proof/Machine/Memory.lean ====
section
/-! DEFINITION. The engine's writable index spaces as data (20_memory.md R40 to R43): a list of (index, element) pairs,
indices strictly rising. What an unlisted index reads as: NO VALUE (`none`), which R41 ("there is no such byte") and
R43 ("hold no value") say and R26 gives for reset (empty). No entry can equal it, so the form is canonical. -/

namespace Sys2Proof.Machine

/-- An index space with elements of type `α`. -/
abbrev Cells (α : Type) := List (Nat × α)

/-- A space of bytes, `MSG` or `PMSG`: a list of the host's cells. -/
abbrev Memory := List Host.Cell

variable {α : Type}

/-- The element at index `k`, if there is one. -/
def Cells.read : Cells α → Nat → Option α
  | [], _ => none
  | (j, v) :: rest, k => if k = j then some v else Cells.read rest k

/-- The write of one element, keeping the indices rising. -/
def Cells.write : Cells α → Nat → α → Cells α
  | [], k, v => [(k, v)]
  | (j, u) :: rest, k, v =>
    if k < j then (k, v) :: (j, u) :: rest
    else if k = j then (k, v) :: rest
    else (j, u) :: Cells.write rest k v

/-- The `n` consecutive elements from index `k` on, if all exist (00_scope.md R8, `MemRead`). -/
def Cells.readSeq (m : Cells α) (k : Nat) : Nat → Option (List α)
  | 0 => some []
  | n + 1 =>
    match Cells.read m k, Cells.readSeq m (k + 1) n with
    | some v, some vs => some (v :: vs)
    | _, _ => none

/-- The write of the elements `vs` at indices `k`, `k + 1`, … (R8, `MemWrite`). -/
def Cells.writeSeq (m : Cells α) (k : Nat) : List α → Cells α
  | [] => m
  | v :: vs => Cells.writeSeq (Cells.write m k v) (k + 1) vs

/-- The canonical form: indices strictly rising. -/
abbrev Cells.wf (m : Cells α) : Prop := (m.map Prod.fst).Pairwise (· < ·)

/-- The canonical form of a byte memory. -/
abbrev Memory.wf (m : Memory) : Prop := Cells.wf m

/-- Exactly the indices below `n` hold an element: the index range 0..n−1 of R40. -/
def Cells.Covers (m : Cells α) (n : Nat) : Prop := ∀ k, (Cells.read m k).isSome = true ↔ k < n

end Sys2Proof.Machine
end

