-- ==== Sys2Proof/Machine/Chunks.lean ====
section
/-! DEFINITION. The Chunk Splitter (42_chunk_splitter.md R110 to R112): the 64-byte split and the little-endian word
decoder, on a byte sequence and on `PMSG`. -/

namespace Sys2Proof.Machine

/-- Word `j` of a 64-byte slice: `LE32` of its bytes `4j .. 4j+3` (R111). The default is never taken on 64 bytes. -/
def wordAt (bs : List Byte) (j : Nat) : Word :=
  le32 (bs.getD (4 * j) 0) (bs.getD (4 * j + 1) 0) (bs.getD (4 * j + 2) 0) (bs.getD (4 * j + 3) 0)

/-- The sixteen words of a 64-byte slice (R111). -/
def decodeBlock (bs : List Byte) : Block := Vector.ofFn fun j : Fin 16 => wordAt bs j

/-- `ChunkBytes(c) = pm[64c .. 64c+64)` of a byte sequence (R110). -/
def chunkSlice (pm : List Byte) (c : Nat) : List Byte := (pm.drop (64 * c)).take 64

/-- `Split(pm)` (R110): one chunk per 64-byte slice in input order, each with its words. -/
def split (pm : List Byte) : List (List Byte × Block) :=
  (List.range (pm.length / 64)).map fun c => (chunkSlice pm c, decodeBlock (chunkSlice pm c))

/-- `ChunkBytes(c)` read from `PMSG`: `none` if one of the 64 bytes does not exist. -/
def chunkBytes (pmsg : Memory) (c : Nat) : Option (List Byte) := Cells.readSeq pmsg (64 * c) 64

/-- `ChunkWord(c, 0..15)` read from `PMSG` (R111). -/
def chunkBlock (pmsg : Memory) (c : Nat) : Option Block :=
  match chunkBytes pmsg c with
  | some bs => some (decodeBlock bs)
  | none => none

end Sys2Proof.Machine
end

