-- ==== Sys2Proof/Config.lean ====
section
/-! DEFINITION. What an instance of the engine fixes (00_scope.md R6) and the free values: constants without
a body, so that nothing can be proved of the value any of them has. The ROM tables, whose contents the spec
gives, are in Machine/Rom.lean. -/

namespace Sys2Proof

/-- The parameters the spec leaves to the implementation (R6; decisions D15, D16, D21). Every host operation
takes them as an argument. -/
structure Params where
  /-- `MAXLEN` in bytes; `none` is "unbounded" (D15). -/
  maxLen : Option Nat
  /-- `TRACE_CAP` in event slots; `none` is "unbounded" (D16). -/
  traceCap : Option Nat
  /-- `WS` without U+0020, as code points. U+0020 always belongs to `WS` (R6), so it is not listed. -/
  wsExtra : List Nat
  deriving DecidableEq, Repr, Inhabited

/-- No capacity limit, and the spec's default whitespace set: U+0009 to U+000D and U+0020 (R92). -/
def Params.default : Params := { maxLen := none, traceCap := none, wsExtra := [0x09, 0x0A, 0x0B, 0x0C, 0x0D] }

/-- The parameters of the engine that `Machine.step` runs. They are the implementation's, so they have no
value here. DESIGN CHOICE (safe), log entry 10. -/
opaque Config.params : Params

/-- The word that slot `k` of `W` (`k` = 0..3) or `M` (`k` = 4..19) holds while the spec says it "holds no value"
for the `epoch`-th time. DESIGN CHOICE (safe), log entry 4. -/
opaque Config.freeWord (epoch k : Nat) : Word

/-- Byte `k` of `DIGEST` while the spec says it "holds no value" for the `epoch`-th time. DESIGN CHOICE (safe),
log entry 4. -/
opaque Config.freeByte (epoch k : Nat) : Byte

end Sys2Proof
end

