-- ==== Sys2Proof/Machine/Rom.lean ====
section
/-! DEFINITION. The constant tables `KROM`, `SROM`, `IVROM`, `FDESC` (10_state.md R20 to R23): read-only, identical in every
engine, no part of the state (R10). Provenance of the values: log entry 20. -/

namespace Sys2Proof.Machine

/-- `KROM[0..63]` (R20). -/
def kromTable : Vector Word 64 :=
  #v[
    0xd76aa478, 0xe8c7b756, 0x242070db, 0xc1bdceee,
    0xf57c0faf, 0x4787c62a, 0xa8304613, 0xfd469501,
    0x698098d8, 0x8b44f7af, 0xffff5bb1, 0x895cd7be,
    0x6b901122, 0xfd987193, 0xa679438e, 0x49b40821,
    0xf61e2562, 0xc040b340, 0x265e5a51, 0xe9b6c7aa,
    0xd62f105d, 0x02441453, 0xd8a1e681, 0xe7d3fbc8,
    0x21e1cde6, 0xc33707d6, 0xf4d50d87, 0x455a14ed,
    0xa9e3e905, 0xfcefa3f8, 0x676f02d9, 0x8d2a4c8a,
    0xfffa3942, 0x8771f681, 0x6d9d6122, 0xfde5380c,
    0xa4beea44, 0x4bdecfa9, 0xf6bb4b60, 0xbebfbc70,
    0x289b7ec6, 0xeaa127fa, 0xd4ef3085, 0x04881d05,
    0xd9d4d039, 0xe6db99e5, 0x1fa27cf8, 0xc4ac5665,
    0xf4292244, 0x432aff97, 0xab9423a7, 0xfc93a039,
    0x655b59c3, 0x8f0ccc92, 0xffeff47d, 0x85845dd1,
    0x6fa87e4f, 0xfe2ce6e0, 0xa3014314, 0x4e0811a1,
    0xf7537e82, 0xbd3af235, 0x2ad7d2bb, 0xeb86d391]

/-- `K[i] = KROM[i]`; the index is six bits, so it is always in range (20_memory.md R44). -/
def krom (i : BitVec 6) : Word := kromTable[i.toNat]'i.isLt

/-- `SROM[0..63]` (R21), entries of 5 bits (D28). -/
def sromTable : Vector (BitVec 5) 64 :=
  #v[
    7, 12, 17, 22, 7, 12, 17, 22, 7, 12, 17, 22, 7, 12, 17, 22,
    5, 9, 14, 20, 5, 9, 14, 20, 5, 9, 14, 20, 5, 9, 14, 20,
    4, 11, 16, 23, 4, 11, 16, 23, 4, 11, 16, 23, 4, 11, 16, 23,
    6, 10, 15, 21, 6, 10, 15, 21, 6, 10, 15, 21, 6, 10, 15, 21]

/-- `S[i] = SROM[i]` (R21). -/
def srom (i : BitVec 6) : BitVec 5 := sromTable[i.toNat]'i.isLt

/-- `IVROM[0..3]`, the initial HashState (R22). -/
def ivrom : Quad := ⟨0x67452301, 0xefcdab89, 0x98badcfe, 0x10325476⟩

/-- One entry of `FDESC` (R23): the function name, its boolean formula and its index formula. -/
structure Fdesc where
  name : String
  fdesc : String
  gdesc : String
  deriving DecidableEq, Repr, Inhabited

/-- `FDESC[0..3]`, by family (R23). -/
def fdescRom : Family → Fdesc
  | .F => ⟨"F", "(b & c) | (~b & d)", "i"⟩
  | .G => ⟨"G", "(d & b) | (~d & c)", "(5i + 1) mod 16"⟩
  | .H => ⟨"H", "b ^ c ^ d", "(3i + 5) mod 16"⟩
  | .I => ⟨"I", "c ^ (b | ~d)", "(7i) mod 16"⟩

end Sys2Proof.Machine
end

