-- ==== Sys2Proof/Machine/State.lean ====
section
/-! DEFINITION. The engine's state as plain data (10_state.md R10 to R19, R25), the event records (44_trace_recorder.md
R153 to R158), the host's commands (60_exceptions.md R200 to R202), the reasons to stop, and the state after
reset (R26). -/

namespace Sys2Proof.Machine

/-- `PH`, the sequencer's phase (R14). The value 7 is never produced and has no constructor. -/
inductive Phase where
  | idle | pre | cst | rnd | cen | don | halt
  deriving DecidableEq, Repr, Inhabited

/-- The seven index spaces (20_memory.md R40). -/
inductive Space where
  | msg | pmsg | trace | krom | srom | ivrom | fdesc
  deriving DecidableEq, Repr, Inhabited

/-- The Preprocess record (R154). -/
structure PreprocessRec where
  origBytes : Nat
  origBits : Nat
  paddedBytes : Nat
  paddedBits : Nat
  bytesAdded : Nat
  chunkCount : Nat
  initDigest : Str32
  deriving DecidableEq, Repr

/-- The ChunkStart record (R155). -/
structure ChunkStartRec where
  chunk : Nat
  words : Block
  hashIn : Quad
  regs : Quad
  deriving DecidableEq, Repr

/-- The Round record (R156). `fam` stands for the three strings `name`, `fdesc`, `gdesc`: "A model may carry the 2-bit
family code instead and treat the strings as a lookup" (R23); see `RoundRec.name` and its neighbours. -/
structure RoundRec where
  chunk : Nat
  round : BitVec 6
  step : Nat
  fam : Family
  g : BitVec 4
  mword : Word
  shift : BitVec 5
  k : Word
  f : Word
  sum : Word
  rotated : Word
  before : Quad
  after : Quad
  preview : Str32
  deriving DecidableEq, Repr

/-- The ChunkEnd record (R157). -/
structure ChunkEndRec where
  chunk : Nat
  hashBefore : Quad
  regsFinal : Quad
  hashAfter : Quad
  digest : Str32
  deriving DecidableEq, Repr

/-- The Done record (R158). -/
structure DoneRec where
  hash : Quad
  digest : Str32
  deriving DecidableEq, Repr

/-- "The Event type is a closed sum of exactly five variants" (R153). -/
inductive Event where
  | preprocess (r : PreprocessRec)
  | chunkStart (r : ChunkStartRec)
  | round (r : RoundRec)
  | chunkEnd (r : ChunkEndRec)
  | done (r : DoneRec)
  deriving DecidableEq, Repr

/-- `FDESC[fam].name` of a Round record (R156). -/
def RoundRec.name (r : RoundRec) : String := (fdescRom r.fam).name

/-- `FDESC[fam].fdesc` of a Round record (R156). -/
def RoundRec.fdesc (r : RoundRec) : String := (fdescRom r.fam).fdesc

/-- `FDESC[fam].gdesc` of a Round record (R156). -/
def RoundRec.gdesc (r : RoundRec) : String := (fdescRom r.fam).gdesc

/-- The host's commands that change state (60_exceptions.md R200 to R202). Text is a sequence of code points and the
mode a number, as the host gives them; which of them are accepted is `hostExec`'s business. -/
inductive HostCommand where
  /-- `Launch(b)`, R200. -/
  | launch (b : List Byte)
  /-- `LaunchText(text, mode)`, R201. -/
  | launchText (text : List Nat) (mode : Nat)
  /-- `Reset`, R202. -/
  | reset
  deriving DecidableEq, Repr

/-- A move of one of the two agents (00_scope.md R9.1). -/
inductive Move where
  | sequencer
  | host (c : HostCommand)
  deriving DecidableEq, Repr

/-- The state of one engine. The fields down to `trace` are the tuple of R10 "and nothing else"; `moves` and `freeEpoch`
are the model's own. -/
structure State where
  /-- HashState `H[0..3]` (R11). -/
  h : Quad
  /-- Working registers `W[0..3]` = A, B, C, D (R12). -/
  w : Quad
  /-- Message-word buffer `M[0..15]` (R13). -/
  m : Block
  /-- `PH` (R14). -/
  ph : Phase
  /-- `CIDX` (R14). -/
  cidx : Nat
  /-- `RIDX` (R14). -/
  ridx : BitVec 6
  /-- `EVN` (R15). -/
  evn : Nat
  /-- `MLEN` (R16). -/
  mlen : Nat
  /-- `PLEN` (R16). -/
  plen : Nat
  /-- `NCHUNK` (R16). -/
  nchunk : Nat
  /-- `ERR`, the one stored status bit (R17). -/
  err : Bool
  /-- `DIGEST` (R19). -/
  digest : Str32
  /-- `MSG` (20_memory.md R41). -/
  msg : Memory
  /-- `PMSG` (20_memory.md R42). -/
  pmsg : Memory
  /-- `TRACE` (20_memory.md R43). -/
  trace : Cells Event
  /-- The model's own: which agent makes each of the next moves, oldest first; when it is empty the sequencer moves.
  DESIGN CHOICE (safe), log entry 5. -/
  moves : List Move
  /-- The model's own: how often `W`, `M` and `DIGEST` have come to hold "no value" (log entry 4). -/
  freeEpoch : Nat
  deriving DecidableEq, Repr

/-- Why the machine stops with a fault. The hardware has no fault of its own beside `InvalidHexInput`, which is taken, not
stopped at (60_exceptions.md R190 to R192). -/
inductive Fault where
  /-- Raised by PRE and CST when the sequencer reads an element that does not exist ("there is no such byte", 20_memory.md
  R41). No run of the engine reaches it (R46). Safe, log entry 7. -/
  | absentElement (space : Space)
  deriving DecidableEq, Repr

/-- Why the model has no move (93_implementation_defined.md, treatment `refuse`). Every one is safe: nothing is said of
what follows. -/
inductive Refusal where
  /-- An instruction without a meaning yet. Raised by `exec` only. Safe. -/
  | notModelled (mnemonic : String)
  /-- A reserved step code, 0x05..0x3F (30_encoding.md R63). Raised by `engineStep`; the sequencer selects none. Safe. -/
  | reservedStepCode
  /-- `Launch` or `LaunchText` while BUSY (R200, R201, R203, V8). Raised by `hostExec`. Safe. -/
  | launchWhileBusy
  /-- `Launch` with `|b| > MAXLEN` (R200, V9). Raised by `hostExec`. Safe. -/
  | messageTooLong
  /-- `Launch` whose trace needs more than `TRACE_CAP` slots (R200, V9). Raised by `hostExec`. Safe. -/
  | traceTooLarge
  /-- `LaunchText` with a mode value that is neither 0 nor 1 (R72, R201, V7). Raised by `hostExec`. Safe. -/
  | noSuchMode
  /-- Text mode with a code point that is no Unicode scalar value (40_input_frontend.md R91, V13). Raised by `hostExec`.
  Safe. -/
  | notScalarValue
  /-- A host read in a phase that forbids it (R203, R204, V8). Raised by `hostRead`. Safe. -/
  | readForbidden
  /-- A host read of an element or register that does not exist (R204, V3, V4). Raised by `hostRead`. Safe. -/
  | readOutOfRange
  deriving DecidableEq, Repr

/-- The state after reset (R26). `W`, `M` and `DIGEST` are "unspecified: hold no value" there; the values here are DESIGN
CHOICES (unsafe), log entries 1, 2, 3. `moves` empty and `freeEpoch` 0 are DESIGN CHOICES of log entries 5 and 4. -/
def State.reset : State where
  h := ivrom
  w := ⟨0, 0, 0, 0⟩
  m := Vector.replicate 16 0
  ph := .idle
  cidx := 0
  ridx := 0
  evn := 0
  mlen := 0
  plen := 0
  nchunk := 0
  err := false
  digest := Vector.replicate 32 0x30
  msg := []
  pmsg := []
  trace := []
  moves := []
  freeEpoch := 0

end Sys2Proof.Machine
end

