-- ==== Sys2Proof/Machine/Ops.lean ====
section
/-! DEFINITION. The named operations over the state that the meanings share (00_scope.md R8): the sequencer's step code and
program counter, the memory primitives, `Emit`, and taking the one exception (60_exceptions.md R191). There is no
return from an exception (R195). -/

namespace Sys2Proof.Machine

/-- `SC`, a function of `PH` and `RIDX` (30_encoding.md R60). It is not stored. -/
def stepCode (ph : Phase) (ridx : BitVec 6) : StepCode :=
  match ph with
  | .idle => 0x04
  | .pre => 0x00
  | .cst => 0x01
  | .rnd => 0x40 + BitVec.ofNat 7 ridx.toNat
  | .cen => 0x02
  | .don => 0x03
  | .halt => 0x04

/-- `pc <- (ph, c, i)` (R8). -/
def setPc (ph : Phase) (c : Nat) (i : BitVec 6) (s : State) : State := { s with ph := ph, cidx := c, ridx := i }

/-- `Emit(e)`: `MemWrite(TRACE, EVN, 1, e); EVN <- EVN + 1` (R8, 44_trace_recorder.md R152). -/
def emit (e : Event) (s : State) : State :=
  { s with trace := Cells.write s.trace s.evn e, evn := s.evn + 1 }

/-- `MemRead(MSG, 0, MLEN)` (41_padding_framer.md R100); `none` if a byte does not exist. -/
def readMessage (s : State) : Option (List Byte) := Cells.readSeq s.msg 0 s.mlen

/-- `MemWrite(PMSG, 0, PLEN, pm)` (R100). -/
def writePadded (pm : List Byte) (s : State) : State := { s with pmsg := Cells.writeSeq s.pmsg 0 pm }

/-- `next` of a round step: `(RND, CIDX, RIDX+1)` if `RIDX < 63`, else `(CEN, CIDX, 0)` (R151). -/
def nextRound (s : State) : State :=
  if s.ridx.toNat < 63 then setPc .rnd s.cidx (s.ridx + 1) s else setPc .cen s.cidx 0 s

/-- `next` of a CEN step: `(CST, c+1, 0)` if `c + 1 < NCHUNK`, else `(DON, 0, 0)` (R151, R157). -/
def nextChunk (s : State) : State :=
  if s.cidx + 1 < s.nchunk then setPc .cst (s.cidx + 1) 0 s else setPc .don 0 0 s

/-- The words `W` holds while it "holds no value": free values (93_implementation_defined.md V1; log entry 4). -/
def freeRegs (epoch : Nat) : Quad :=
  ⟨Config.freeWord epoch 0, Config.freeWord epoch 1, Config.freeWord epoch 2, Config.freeWord epoch 3⟩

/-- The words `M` holds while it "holds no value": free values (V1; log entry 4). -/
def freeBlock (epoch : Nat) : Block := Vector.ofFn fun j : Fin 16 => Config.freeWord epoch (4 + j)

/-- What `DIGEST` holds while it "holds no value": free bytes (V2; log entry 4). -/
def freeDigest (epoch : Nat) : Str32 := Vector.ofFn fun k : Fin 32 => Config.freeByte epoch k

/-- The reset state of R26, reached from `s` by a host action: every value R26 gives, and no value (a free value) in `W`,
`M` and `DIGEST`. What is outside the engine (`moves`) stays, and the counter of free values goes on. -/
def idleState (s : State) : State where
  h := ivrom
  w := freeRegs s.freeEpoch
  m := freeBlock s.freeEpoch
  ph := .idle
  cidx := 0
  ridx := 0
  evn := 0
  mlen := 0
  plen := 0
  nchunk := 0
  err := false
  digest := freeDigest s.freeEpoch
  msg := []
  pmsg := []
  trace := []
  moves := s.moves
  freeEpoch := s.freeEpoch + 1

/-- The engine's exceptions: exactly one (60_exceptions.md R190). -/
inductive HwException where
  | invalidHexInput
  deriving DecidableEq, Repr

/-- The exception's code; 0 means none (R190, D25). -/
def exceptionCode : Option HwException → Nat
  | none => 0
  | some .invalidHexInput => 1

/-- Taking `InvalidHexInput` (R191): the reset state except that `ERR = 1`. Nothing is saved and no handler runs. -/
def takeException (e : HwException) (s : State) : State :=
  match e with
  | .invalidHexInput => { idleState s with err := true }

end Sys2Proof.Machine
end

