-- ==== Sys2Proof/Machine/Padding.lean ====
section
/-! DEFINITION. The Padding & Framer (41_padding_framer.md R100 to R106): a pure function of the ByteSequence, and its
geometry. -/

namespace Sys2Proof.Machine

/-- `z = (55 − L) mod 64`, the mathematical modulus: the number of zero bytes (R102). -/
def zeroFill (len : Nat) : Nat := ((55 - (len : Int)) % 64).toNat

/-- The length suffix: `8·L` in Nat, then reduced modulo 2^64, as eight bytes little-endian (R103). -/
def lengthSuffix (len : Nat) : List Byte := leBytes 8 ((8 * len) % 2 ^ 64)

/-- `Pad(b)` (R100). -/
def pad (b : List Byte) : List Byte :=
  b ++ [0x80] ++ List.replicate (zeroFill b.length) 0x00 ++ lengthSuffix b.length

/-- `NCHUNK` of a message of `len` bytes, the closed form of R104. -/
def chunkCountOf (len : Nat) : Nat := (len + 8) / 64 + 1

end Sys2Proof.Machine
end

