-- ==== Sys2Proof/Machine/Operands.lean ====
section
/-! DEFINITION. Operand selection (30_encoding.md R65): no operand is encoded; round family, message-word index, message
word, round constant and rotation amount are selected by the round index. -/

namespace Sys2Proof.Machine

/-- The round family `fam = i div 16 = i[5:4]` (43_round_engine.md R121). -/
def familyOf (i : BitVec 6) : Family :=
  if i.toNat < 16 then .F
  else if i.toNat < 32 then .G
  else if i.toNat < 48 then .H
  else .I

/-- The number of a family, `fam` (30_encoding.md R61). -/
def familyCode : Family → Nat
  | .F => 0
  | .G => 1
  | .H => 2
  | .I => 3

/-- The family of a number, if it is one (R73: `fam` byte values 4..255 are never written). -/
def familyOfCode : Nat → Option Family
  | 0 => some .F
  | 1 => some .G
  | 2 => some .H
  | 3 => some .I
  | _ => none

/-- The message-word index `g`, four bits, by the family's formula modulo 16 (R122 to R125). -/
def gIndex (fam : Family) (i : BitVec 6) : BitVec 4 :=
  match fam with
  | .F => BitVec.ofNat 4 (i.toNat % 16)
  | .G => BitVec.ofNat 4 ((5 * i.toNat + 1) % 16)
  | .H => BitVec.ofNat 4 ((3 * i.toNat + 5) % 16)
  | .I => BitVec.ofNat 4 ((7 * i.toNat) % 16)

/-- The message word `M[g]` (R128). -/
def messageWord (m : Block) (g : BitVec 4) : Word := m[g.toNat]'g.isLt

end Sys2Proof.Machine
end

