-- ==== Sys2Proof/Machine/RoundEngine.lean ====
section
/-! DEFINITION. The Round Engine's units as pure functions (43_round_engine.md R120 to R128, R133 to R136): boolean function
multiplexer, four-operand addition, left rotate, register rotation, the round function, the fold, and one chunk's
compression. -/

namespace Sys2Proof.Machine

/-- The boolean function multiplexer (R122 to R125), from the registers before the round's update. `a` is no input
(R121). -/
def boolFn (fam : Family) (b c d : Word) : Word :=
  match fam with
  | .F => (b &&& c) ||| (~~~b &&& d)
  | .G => (d &&& b) ||| (~~~d &&& c)
  | .H => b ^^^ c ^^^ d
  | .I => c ^^^ (b ||| ~~~d)

/-- Four-operand addition modulo 2^32 (R126). -/
def add4 (a f k mword : Word) : Word := a + f + k + mword

/-- `ROTL32(x, n)`, with `n` taken modulo 32 (R127, D18): left shift truncated to 32 bits, logical right shift. -/
def rotl32 (x : Word) (n : Nat) : Word := (x <<< (n % 32)) ||| (x >>> ((32 - n % 32) % 32))

/-- The register rotation `(a', b', c', d') = (d, b +32 rotated, b, c)`, all from the values before the round (R135). -/
def rotateRegs (w : Quad) (rotated : Word) : Quad := ⟨w.d, w.b + rotated, w.b, w.c⟩

/-- The result of the round function (R128). -/
structure RoundResult where
  fam : Family
  f : Word
  g : BitVec 4
  mword : Word
  s : BitVec 5
  k : Word
  sum : Word
  rotated : Word
  regs : Quad
  deriving DecidableEq, Repr

/-- The round of family `fam` at index `i` (R129 to R132, steps 2 to 5 of R128). -/
def familyRound (fam : Family) (i : BitVec 6) (w : Quad) (m : Block) : RoundResult :=
  let f := boolFn fam w.b w.c w.d
  let g := gIndex fam i
  let mword := messageWord m g
  let k := krom i
  let s := srom i
  let sum := add4 w.a f k mword
  let rotated := rotl32 sum s.toNat
  { fam, f, g, mword, s, k, sum, rotated, regs := rotateRegs w rotated }

/-- `RoundFn(i, (a, b, c, d), m)` (R128): step 1 selects the family by the round index. -/
def roundFn (i : BitVec 6) (w : Quad) (m : Block) : RoundResult := familyRound (familyOf i) i w m

/-- Element-wise addition modulo 2^32, each position on its own: the fold (R134) and the preview sums (R161). -/
def foldQuad (h w : Quad) : Quad := ⟨h.a + w.a, h.b + w.b, h.c + w.c, h.d + w.d⟩

/-- The registers after the first `n` rounds of a chunk with words `m`, starting from `w` (R120). -/
def roundsFrom (w : Quad) (m : Block) : Nat → Quad
  | 0 => w
  | n + 1 => (roundFn (BitVec.ofNat 6 n) (roundsFrom w m n) m).regs

/-- `Compress(h, m)` (R120): registers from `h` (R133), 64 rounds, fold (R134). -/
def compress (h : Quad) (m : Block) : Quad := foldQuad h (roundsFrom h m 64)

end Sys2Proof.Machine
end

