-- ==== Sys2Proof/Machine/Control.lean ====
section
/-! DEFINITION. The control operations `PRE`, `CST`, `CEN`, `DON`, `HLT` (44_trace_recorder.md R154, R155, R157 to R159). -/

namespace Sys2Proof.Machine

/-- The Preprocess event: lengths unreduced, the digest of the untouched `H` (R154). -/
def preprocessEvent (s : State) (pm : List Byte) : PreprocessRec where
  origBytes := s.mlen
  origBits := 8 * s.mlen
  paddedBytes := pm.length
  paddedBits := 8 * pm.length
  bytesAdded := pm.length - s.mlen
  chunkCount := pm.length / 64
  initDigest := fmt s.h

/-- The padding of `PRE` (R154): `PMSG <- Pad(b)`, `PLEN <- |Pad(b)|`, `NCHUNK <- PLEN / 64`. -/
def padInto (b : List Byte) (s : State) : State :=
  writePadded (pad b) { s with plen := (pad b).length, nchunk := (pad b).length / 64 }

/-- `PRE` (R154): pads `MSG` into `PMSG`, sets `PLEN` and `NCHUNK`. -/
def execPre (s : State) : Host.Outcome State Fault Refusal :=
  match readMessage s with
  | none => .fault (.absentElement .msg)
  | some b => .next (setPc .cst 0 0 (emit (.preprocess (preprocessEvent s (pad b))) (padInto b s)))

/-- The ChunkStart event: the values just loaded (R155). -/
def chunkStartEvent (s : State) (words : Block) : ChunkStartRec where
  chunk := s.cidx
  words := words
  hashIn := s.h
  regs := s.h

/-- `CST` (R155): loads `M` with the words of chunk `CIDX` and `W` from `H` (43_round_engine.md R133). -/
def execCst (s : State) : Host.Outcome State Fault Refusal :=
  match chunkBlock s.pmsg s.cidx with
  | none => .fault (.absentElement .pmsg)
  | some words =>
    .next (setPc .rnd s.cidx 0 (emit (.chunkStart (chunkStartEvent s words)) { s with m := words, w := s.h }))

/-- The ChunkEnd event: `hashBefore` from before the fold, `hashAfter` and `digest` of the new values (R157). -/
def chunkEndEvent (s : State) (hashAfter : Quad) : ChunkEndRec where
  chunk := s.cidx
  hashBefore := s.h
  regsFinal := s.w
  hashAfter := hashAfter
  digest := fmt hashAfter

/-- `CEN` (R157): the fold `H[k] <- H[k] +32 W[k]` (43_round_engine.md R134). -/
def execCen (s : State) : Host.Outcome State Fault Refusal :=
  let hashAfter := foldQuad s.h s.w
  .next (nextChunk (emit (.chunkEnd (chunkEndEvent s hashAfter)) { s with h := hashAfter }))

/-- `DON` (R158): `DIGEST` and the Done event. -/
def execDon (s : State) : Host.Outcome State Fault Refusal :=
  .next (setPc .halt 0 0 (emit (.done { hash := s.h, digest := fmt s.h }) { s with digest := fmt s.h }))

/-- `HLT` (R159): "no state changes, no event is emitted". Log entry 8. -/
def execHlt (s : State) : Host.Outcome State Fault Refusal := .next s

end Sys2Proof.Machine
end

