-- ==== Sys2Proof/Machine/Rounds.lean ====
section
/-! DEFINITION. The round operations `RND.F`, `RND.G`, `RND.H`, `RND.I` (43_round_engine.md R129 to R132) and the Round event
they emit (44_trace_recorder.md R156, R161). -/

namespace Sys2Proof.Machine

/-- The preview digest: `Fmt(H[k] +32 regs'[k])`, from a temporary; `H` is not written (R161). -/
def previewDigest (h after : Quad) : Str32 := fmt (foldQuad h after)

/-- The Round event of a round result computed in state `s`, before the step's writes (R156). -/
def roundEvent (s : State) (r : RoundResult) : RoundRec where
  chunk := s.cidx
  round := s.ridx
  step := s.ridx.toNat + 1
  fam := r.fam
  g := r.g
  mword := r.mword
  shift := r.s
  k := r.k
  f := r.f
  sum := r.sum
  rotated := r.rotated
  before := s.w
  after := r.regs
  preview := previewDigest s.h r.regs

/-- What the four round operations share: `i <- RIDX`, the round of the operation's own family, `W` updated, one Round
event, `pc <- next`, in one atomic step (R129 to R132). -/
def roundStep (fam : Family) (s : State) : Host.Outcome State Fault Refusal :=
  let r := familyRound fam s.ridx s.w s.m
  .next (nextRound (emit (.round (roundEvent s r)) { s with w := r.regs }))

/-- `RND.F` (R129). -/
def execRndF (s : State) : Host.Outcome State Fault Refusal := roundStep .F s

/-- `RND.G` (R130). -/
def execRndG (s : State) : Host.Outcome State Fault Refusal := roundStep .G s

/-- `RND.H` (R131). -/
def execRndH (s : State) : Host.Outcome State Fault Refusal := roundStep .H s

/-- `RND.I` (R132). -/
def execRndI (s : State) : Host.Outcome State Fault Refusal := roundStep .I s

end Sys2Proof.Machine
end

