-- ==== Sys2Proof/Machine/Dispatch.lean ====
section
/-! DEFINITION. One arm per operation of the opcode map (30_encoding.md R62). The round operations take their round index from
`RIDX`, not from the step code ("No operation carries an immediate", R65; log entry 9). -/

namespace Sys2Proof.Machine

def exec (i : Instr) (s : State) : Host.Outcome State Fault Refusal :=
  match i with
  | .pre => Sys2Proof.Machine.execPre s
  | .cst => Sys2Proof.Machine.execCst s
  | .cen => Sys2Proof.Machine.execCen s
  | .don => Sys2Proof.Machine.execDon s
  | .hlt => Sys2Proof.Machine.execHlt s
  | .rndF _ => Sys2Proof.Machine.execRndF s
  | .rndG _ => Sys2Proof.Machine.execRndG s
  | .rndH _ => Sys2Proof.Machine.execRndH s
  | .rndI _ => Sys2Proof.Machine.execRndI s

end Sys2Proof.Machine
end

