-- ==== Sys2Proof/Machine/Flags.lean ====
section
/-! DEFINITION. Status bits (10_state.md R17). There are no arithmetic flags or condition codes (R18): `BUSY` and `DONE` are
derived from `PH`, and `ERR` is the one stored bit. -/

namespace Sys2Proof.Machine

/-- The number of a phase (R14). -/
def phaseCode : Phase → BitVec 3
  | .idle => 0
  | .pre => 1
  | .cst => 2
  | .rnd => 3
  | .cen => 4
  | .don => 5
  | .halt => 6

/-- `STATUS.BUSY`: `PH ∈ {PRE, CST, RND, CEN, DON}` (R17). -/
def busy (s : State) : Bool :=
  match s.ph with
  | .pre => true
  | .cst => true
  | .rnd => true
  | .cen => true
  | .don => true
  | .idle => false
  | .halt => false

/-- `STATUS.DONE`: `PH = HALT` (R17). -/
def done (s : State) : Bool :=
  match s.ph with
  | .halt => true
  | .idle => false
  | .pre => false
  | .cst => false
  | .rnd => false
  | .cen => false
  | .don => false

/-- The register `STATUS`: bit 0 `BUSY`, bit 1 `DONE`, bit 2 `ERR`, bits 31:3 zero (R17). -/
def status (s : State) : Word :=
  BitVec.ofNat 32 ((busy s).toNat + 2 * (done s).toNat + 4 * s.err.toNat)

end Sys2Proof.Machine
end

