-- ==== Sys2Proof/Machine/Fetch.lean ====
section
/-! DEFINITION. Which operation the sequencer selects, and how a state is put at an operation. There is no instruction memory and
no fetch (20_memory.md R53): the step code is a function of `PH` and `RIDX` (30_encoding.md R60). -/

namespace Sys2Proof.Machine

/-- The step code the sequencer selects in a state. -/
def fetchCode (s : State) : StepCode := stepCode s.ph s.ridx

/-- What CST reads is put in place where it is missing, as the PRE of the same message would: `PMSG`, `PLEN`, `NCHUNK`, from chunk
0 on. A state that holds chunk `CIDX` is left alone. Log entry 6. -/
def withChunk (s : State) : State :=
  match chunkBlock s.pmsg s.cidx, readMessage s with
  | none, some b => { padInto b s with cidx := 0 }
  | _, _ => s

/-- The state with its sequencer at operation `i`, so that `fetchCode` is `i`'s step code, and the sequencer to move. -/
def positionAt (i : Instr) (s : State) : State :=
  let t := { s with moves := [] }
  match i with
  | .pre => setPc .pre 0 0 t
  | .cst => setPc .cst (withChunk t).cidx 0 (withChunk t)
  | .cen => setPc .cen t.cidx 0 t
  | .don => setPc .don 0 0 t
  | .hlt => if busy t then setPc .halt 0 0 t else t
  | .rndF k => setPc .rnd t.cidx k t
  | .rndG k => setPc .rnd t.cidx k t
  | .rndH k => setPc .rnd t.cidx k t
  | .rndI k => setPc .rnd t.cidx k t

end Sys2Proof.Machine
end

