-- ==== Sys2Proof/Machine/FrontEnd.lean ====
section
/-! DEFINITION. The front end, the Byte Normalizer (40_input_frontend.md R90 to R94): a pure function of the text, the mode and
the parameter `WS`. Text is a list of code points. -/

namespace Sys2Proof.Machine

/-- A Unicode scalar value: U+0000..U+D7FF, U+E000..U+10FFFF (R91). -/
def isScalar (u : Nat) : Bool := u < 0xD800 || (0xE000 ≤ u && u ≤ 0x10FFFF)

/-- The UTF-8 encoding of one scalar value (R91), a bit field `u[hi:lo]` being `u div 2^lo mod 2^(hi−lo+1)`. -/
def utf8Char (u : Nat) : List Byte :=
  if u ≤ 0x7F then [BitVec.ofNat 8 u]
  else if u ≤ 0x7FF then [BitVec.ofNat 8 (0xC0 + u / 2 ^ 6 % 2 ^ 5), BitVec.ofNat 8 (0x80 + u % 2 ^ 6)]
  else if u ≤ 0xFFFF then
    [BitVec.ofNat 8 (0xE0 + u / 2 ^ 12 % 2 ^ 4), BitVec.ofNat 8 (0x80 + u / 2 ^ 6 % 2 ^ 6),
     BitVec.ofNat 8 (0x80 + u % 2 ^ 6)]
  else
    [BitVec.ofNat 8 (0xF0 + u / 2 ^ 18 % 2 ^ 3), BitVec.ofNat 8 (0x80 + u / 2 ^ 12 % 2 ^ 6),
     BitVec.ofNat 8 (0x80 + u / 2 ^ 6 % 2 ^ 6), BitVec.ofNat 8 (0x80 + u % 2 ^ 6)]

/-- Text mode: the concatenation of the encodings of the characters in order (R91). -/
def utf8 (text : List Nat) : List Byte := text.flatMap utf8Char

/-- Membership in `WS`, which always contains U+0020 (00_scope.md R6). -/
def isWhitespace (p : Params) (u : Nat) : Bool := u == 0x20 || p.wsExtra.contains u

/-- The text without its whitespace characters, "wherever it stands" (R92). -/
def stripWhitespace (p : Params) (text : List Nat) : List Nat := text.filter fun u => !isWhitespace p u

/-- The failure conditions of hex mode on the stripped text: odd length, or a character outside `[0-9a-fA-F]` (R92). -/
def hexRejects (t : List Nat) : Bool := t.length % 2 == 1 || t.any fun u => (hexValue u).isNone

/-- Pairs of digits into bytes in input order, the first digit the high nibble (R93). It is used only on text that
`hexRejects` does not reject, where no default is taken. -/
def decodePairs : List Nat → List Byte
  | x :: y :: rest =>
    BitVec.ofNat 8 (16 * (hexValue x).getD 0 + (hexValue y).getD 0) :: decodePairs rest
  | _ => []

/-- `Normalize(text, mode)` (R90): a ByteSequence or the failure `InvalidHexInput`. -/
def normalizeText (p : Params) (text : List Nat) (mode : Mode) : Except HwException (List Byte) :=
  match mode with
  | .text => .ok (utf8 text)
  | .hex =>
    if hexRejects (stripWhitespace p text) then .error .invalidHexInput
    else .ok (decodePairs (stripWhitespace p text))

/-- The domain of `Normalize` in each mode: text mode takes Unicode scalar values only (R91, V13); hex mode judges every
character itself (R92). Log entry 15. -/
def inDomain (text : List Nat) (mode : Mode) : Bool :=
  match mode with
  | .text => text.all isScalar
  | .hex => true

end Sys2Proof.Machine
end

