-- ==== Sys2Proof/Machine/HostCommands.lean ====
section
/-! DEFINITION. The host's commands (60_exceptions.md R200 to R202), each one atomic action. "If a precondition fails the launch
is refused: the model has no such move" (R200); which reason is named when several fail is log entry 12. -/

namespace Sys2Proof.Machine

/-- The number of events of a run on a message of `len` bytes, `2 + 66·NCHUNK` (R200, 44_trace_recorder.md R160). -/
def eventsNeeded (len : Nat) : Nat := 2 + 66 * chunkCountOf len

/-- `n ≤ cap`, where `none` is an unbounded capacity (00_scope.md R6). -/
def withinCap (cap : Option Nat) (n : Nat) : Bool :=
  match cap with
  | none => true
  | some c => n ≤ c

/-- The effect of `Launch(b)` (R200). The state differs from the reset state only in `MSG`, `MLEN` and `PH = PRE`
(10_state.md R26). -/
def launched (b : List Byte) (s : State) : State :=
  { idleState s with ph := .pre, mlen := b.length, msg := Cells.writeSeq [] 0 b }

/-- `Launch(b)` (R200). -/
def launch (p : Params) (b : List Byte) (s : State) : Host.Outcome State Fault Refusal :=
  if busy s then .refused .launchWhileBusy
  else if !withinCap p.maxLen b.length then .refused .messageTooLong
  else if !withinCap p.traceCap (eventsNeeded b.length) then .refused .traceTooLarge
  else .next (launched b s)

/-- `LaunchText(text, mode)` (R201): `Normalize`, then `Launch` on success or the exception of R191. -/
def launchText (p : Params) (text : List Nat) (mode : Nat) (s : State) : Host.Outcome State Fault Refusal :=
  if busy s then .refused .launchWhileBusy
  else
    match Mode.decode mode with
    | none => .refused .noSuchMode
    | some md =>
      if !inDomain text md then .refused .notScalarValue
      else
        match normalizeText p text md with
        | .error e => .next (takeException e s)
        | .ok b => launch p b s

/-- `Reset` (R202): the state of R26, whatever the phase. Of a reset while BUSY nothing else is claimed; log entry 11. -/
def hostReset (s : State) : Host.Outcome State Fault Refusal := .next (idleState s)

/-- One host command. -/
def hostExec (p : Params) (c : HostCommand) (s : State) : Host.Outcome State Fault Refusal :=
  match c with
  | .launch b => launch p b s
  | .launchText text mode => launchText p text mode s
  | .reset => hostReset s

end Sys2Proof.Machine
end

