-- ==== Sys2Proof/Machine/Step.lean ====
section
/-! DEFINITION. One step of the system (00_scope.md R9.1): a move of the sequencer or of the host. `moves` says whose; when it is
empty the sequencer moves, so that a busy engine always eventually takes its next step (60_exceptions.md R203). Log
entry 5. -/

namespace Sys2Proof.Machine

/-- One move of the sequencer: the operation that `PH` and `RIDX` select (30_encoding.md R60). -/
def engineStep (s : State) : Host.Outcome State Fault Refusal :=
  match decode (fetchCode s) with
  | .ok i => exec i s
  | .error _ => .refused .reservedStepCode

/-- One step of an engine with parameters `p`. -/
def stepWith (p : Params) (s : State) : Host.Outcome State Fault Refusal :=
  match s.moves with
  | [] => engineStep s
  | .sequencer :: rest => engineStep { s with moves := rest }
  | .host c :: rest => hostExec p c { s with moves := rest }

/-- One step. -/
def step (s : State) : Host.Outcome State Fault Refusal := stepWith Config.params s

/-- The state with its sequencer at the operation of the table word `w` (log entry 6). A word that is no operation's step code
is selected by no sequencer state, and the state is left as it is. -/
def State.withFetchWord (s : State) (nbits w : Nat) : State :=
  match decodeTableWord nbits w with
  | none => s
  | some i => positionAt i s

end Sys2Proof.Machine
end

