-- ==== Sys2Proof/Machine/Program.lean ====
section
/-! DEFINITION. The one program the engine runs (30_encoding.md R64), its listing and macros (R74, R75), and what a run on a message
leaves, as pure functions of the message: the hash after each chunk, the digest, and the event at each trace index
(44_trace_recorder.md R160, R162, R164). No step calls these; statements compare the machine with them. -/

namespace Sys2Proof.Machine

/-- One entry of a listing: an operation and its operand, "the chunk index for `CST`/`CEN` and the round index `i` for `RND.*`"
(R74). -/
structure ListingOp where
  instr : Instr
  operand : Option Nat
  deriving DecidableEq, Repr

/-- The operation `RND.* i` of the family that owns round `i` (R61, R62). -/
def rndInstr (i : BitVec 6) : Instr :=
  match familyOf i with
  | .F => .rndF i
  | .G => .rndG i
  | .H => .rndH i
  | .I => .rndI i

/-- A listing entry is well formed: the family suffix agrees with `i`, and the operand is the one R74 gives the operation. -/
def ListingOp.wellFormed (l : ListingOp) : Bool :=
  match l.instr with
  | .pre => l.operand == none
  | .cst => l.operand.isSome
  | .cen => l.operand.isSome
  | .don => l.operand == none
  | .hlt => l.operand == none
  | .rndF i => Family.owns .F i && l.operand == some i.toNat
  | .rndG i => Family.owns .G i && l.operand == some i.toNat
  | .rndH i => Family.owns .H i && l.operand == some i.toNat
  | .rndI i => Family.owns .I i && l.operand == some i.toNat

/-- The macro `CHUNK c`: `CST c`, the 64 rounds, `CEN c` (R75). -/
def chunkMacro (c : Nat) : List ListingOp :=
  ⟨.cst, some c⟩ :: (List.range 64).map (fun i => ⟨rndInstr (BitVec.ofNat 6 i), some i⟩) ++ [⟨.cen, some c⟩]

/-- The macro `MD5 n` without the `HLT` that follows it: `PRE`, the chunks, `DON` (R75). -/
def md5Macro (n : Nat) : List ListingOp :=
  ⟨.pre, none⟩ :: (List.range n).flatMap chunkMacro ++ [⟨.don, none⟩]

/-- The step code executed at trace index `p` of a run with `n` chunks (R64). -/
def programCode (n p : Nat) : StepCode :=
  if p = 0 then 0x00
  else if p = 1 + 66 * n then 0x03
  else if (p - 1) % 66 = 0 then 0x01
  else if (p - 1) % 66 = 65 then 0x02
  else 0x40 + BitVec.ofNat 7 ((p - 1) % 66 - 1)

/-- A step code as two hex digits (R74). -/
def hexTwo (sc : StepCode) : String :=
  String.ofList ((hexPair (BitVec.ofNat 8 sc.toNat)).map fun b => Char.ofNat b.toNat)

/-- A listing line `<p>: <SC>  <mnemonic> [<operand>]` (R74; log entry 19). -/
def listingLine (p : Nat) (l : ListingOp) : String :=
  toString p ++ ": " ++ hexTwo (encode l.instr) ++ "  " ++ l.instr.row.mnemonic ++
    (match l.operand with
     | none => ""
     | some k => " " ++ toString k)

/-- The words of chunk `c` of the padded message `Pad(b)` (42_chunk_splitter.md R111). -/
def messageBlock (b : List Byte) (c : Nat) : Block := decodeBlock (chunkSlice (pad b) c)

/-- The HashState after `c` chunks of the message: from `IVROM`, one `Compress` per chunk (R150, 43_round_engine.md R120). -/
def hashAfter (b : List Byte) : Nat → Quad
  | 0 => ivrom
  | c + 1 => compress (hashAfter b c) (messageBlock b c)

/-- The digest of a message (R158). -/
def md5 (b : List Byte) : Str32 := fmt (hashAfter b (chunkCountOf b.length))

/-- The working registers before round `i` of chunk `c`. -/
def regsBefore (b : List Byte) (c i : Nat) : Quad := roundsFrom (hashAfter b c) (messageBlock b c) i

/-- The Round event of round `i` of chunk `c` (R156, R161). -/
def messageRound (b : List Byte) (c i : Nat) : RoundRec :=
  let ix := BitVec.ofNat 6 i
  let r := roundFn ix (regsBefore b c i) (messageBlock b c)
  { chunk := c, round := ix, step := i + 1, fam := r.fam, g := r.g, mword := r.mword, shift := r.s, k := r.k, f := r.f,
    sum := r.sum, rotated := r.rotated, before := regsBefore b c i, after := regsBefore b c (i + 1),
    preview := fmt (foldQuad (hashAfter b c) (regsBefore b c (i + 1))) }

/-- The event at trace index `p` of a run on message `b` (R160 positions, R162 chaining). -/
def messageEvent (b : List Byte) (p : Nat) : Event :=
  let n := chunkCountOf b.length
  let c := (p - 1) / 66
  let r := (p - 1) % 66
  if p = 0 then
    .preprocess
      { origBytes := b.length, origBits := 8 * b.length, paddedBytes := 64 * n, paddedBits := 8 * (64 * n),
        bytesAdded := 64 * n - b.length, chunkCount := n, initDigest := fmt ivrom }
  else if p = 1 + 66 * n then .done { hash := hashAfter b n, digest := fmt (hashAfter b n) }
  else if r = 0 then
    .chunkStart { chunk := c, words := messageBlock b c, hashIn := hashAfter b c, regs := hashAfter b c }
  else if r = 65 then
    .chunkEnd
      { chunk := c, hashBefore := hashAfter b c, regsFinal := regsBefore b c 64, hashAfter := hashAfter b (c + 1),
        digest := fmt (hashAfter b (c + 1)) }
  else .round (messageRound b c (r - 1))

end Sys2Proof.Machine
end

