-- ==== Sys2Proof/Machine/ReadBack.lean ====
section
/-! DEFINITION. The host's reads (60_exceptions.md R203, R204): registers by number (10_state.md R24), memories, ROMs and Chunks,
with the phase that each needs; and the Trace value of 44_trace_recorder.md R165. A read changes nothing (20_memory.md
R47). -/

namespace Sys2Proof.Machine

/-- What the host can ask for (R204, R165). -/
inductive HostRead where
  | register (n : Nat)
  | msg (k : Nat)
  | pmsg (k : Nat)
  | trace (n : Nat)
  | chunkByte (c k : Nat)
  | chunkWord (c j : Nat)
  | krom (i : Nat)
  | srom (i : Nat)
  | ivrom (k : Nat)
  | fdesc (k : Nat)
  deriving DecidableEq, Repr

/-- What a read returns, by the widths of R24 and R40. -/
inductive HostValue where
  | word (v : Word)
  | phase (v : BitVec 3)
  | index (v : BitVec 6)
  | code (v : StepCode)
  | count (v : Nat)
  | byte (v : Byte)
  | rotation (v : BitVec 5)
  | text (v : Str32)
  | strings (v : Fdesc)
  | event (v : Event)
  deriving DecidableEq, Repr

/-- A value readable only when `PH = HALT` (R24, R204). -/
def whenDone (s : State) (v : HostValue) : Except Refusal HostValue :=
  if done s then .ok v else .error .readForbidden

/-- A value readable when the engine is quiescent, `PH ∈ {IDLE, HALT}` (R24, R204). -/
def whenQuiet (s : State) (v : HostValue) : Except Refusal HostValue :=
  if busy s then .error .readForbidden else .ok v

/-- An element readable only when `PH = HALT`; `none` is an element that does not exist. R204 says only "refused" of either; that
range is judged before phase, and so `readOutOfRange` named when both fail, is the model's: DESIGN CHOICE (safe), log entry 22. -/
def elementWhenDone (s : State) (v : Option HostValue) : Except Refusal HostValue :=
  match v with
  | none => .error .readOutOfRange
  | some x => whenDone s x

/-- Element `k` of four words. -/
def quadGet (q : Quad) (k : Nat) : Option Word :=
  match k with
  | 0 => some q.a
  | 1 => some q.b
  | 2 => some q.c
  | 3 => some q.d
  | _ => none

/-- Element `j` of sixteen words. -/
def blockGet (m : Block) (j : Nat) : Option Word := m[j]?

/-- The host-visible registers by number (R24). A number that is no register's is `readOutOfRange` in every phase (log entry 22). -/
def readRegister (n : Nat) (s : State) : Except Refusal HostValue :=
  if n = 0 then .ok (.word (status s))
  else if n = 1 then .ok (.phase (phaseCode s.ph))
  else if n = 2 then .ok (.count s.cidx)
  else if n = 3 then .ok (.index s.ridx)
  else if n = 4 then .ok (.code (stepCode s.ph s.ridx))
  else if n = 5 then .ok (.count s.evn)
  else if n = 6 then .ok (.count s.mlen)
  else if n = 7 then whenDone s (.count s.plen)
  else if n = 8 then whenDone s (.count s.nchunk)
  else if n < 13 then
    match quadGet s.h (n - 9) with
    | none => .error .readOutOfRange
    | some x => whenQuiet s (.word x)
  else if n < 17 then elementWhenDone s ((quadGet s.w (n - 13)).map .word)
  else if n < 33 then elementWhenDone s ((blockGet s.m (n - 17)).map .word)
  else if n = 33 then whenDone s (.text s.digest)
  else .error .readOutOfRange

/-- One host read (R203, R204). `MSG[k]` exists for `k < MLEN`, `PMSG[k]` for `k < PLEN`, `TRACE[n]` for `n < EVN`, the chunks for
`c < NCHUNK` (42_chunk_splitter.md R112); ROM reads need a quiescent engine. Every read judges range before phase (log entry 22). -/
def hostRead (r : HostRead) (s : State) : Except Refusal HostValue :=
  match r with
  | .register n => readRegister n s
  | .msg k => elementWhenDone s (if k < s.mlen then (Cells.read s.msg k).map .byte else none)
  | .pmsg k => elementWhenDone s (if k < s.plen then (Cells.read s.pmsg k).map .byte else none)
  | .trace n => elementWhenDone s (if n < s.evn then (Cells.read s.trace n).map .event else none)
  | .chunkByte c k =>
    elementWhenDone s (if c < s.nchunk ∧ k < 64 then (Cells.read s.pmsg (64 * c + k)).map .byte else none)
  | .chunkWord c j =>
    elementWhenDone s
      (if c < s.nchunk ∧ j < 16 then (chunkBlock s.pmsg c).bind fun m => (blockGet m j).map .word else none)
  | .krom i => if i < 64 then whenQuiet s (.word (krom (BitVec.ofNat 6 i))) else .error .readOutOfRange
  | .srom i => if i < 64 then whenQuiet s (.rotation (srom (BitVec.ofNat 6 i))) else .error .readOutOfRange
  | .ivrom k =>
    match quadGet ivrom k with
    | none => .error .readOutOfRange
    | some x => whenQuiet s (.word x)
  | .fdesc k =>
    match familyOfCode k with
    | none => .error .readOutOfRange
    | some fam => whenQuiet s (.strings (fdescRom fam))

/-- The Trace the document defines, as the host reads it after `DONE` (R165). -/
structure TraceValue where
  events : List Event
  message : List Byte
  padded : List Byte
  chunks : List (List Byte × Block)
  digest : Str32
  roundConstants : List Word
  shiftAmounts : List (BitVec 5)
  initialHash : Quad
  deriving DecidableEq, Repr

/-- The Trace value, when `PH = HALT` and every element exists (R165). -/
def traceValue (s : State) : Except Refusal TraceValue :=
  if done s then
    match Cells.readSeq s.trace 0 s.evn, Cells.readSeq s.msg 0 s.mlen, Cells.readSeq s.pmsg 0 s.plen with
    | some events, some message, some padded =>
      .ok { events, message, padded, chunks := split padded, digest := s.digest,
            roundConstants := kromTable.toList, shiftAmounts := sromTable.toList, initialHash := ivrom }
    | _, _, _ => .error .readOutOfRange
  else .error .readForbidden

end Sys2Proof.Machine
end

