-- ==== Sys2Proof/Machine/Serialize.lean ====
section
/-! DEFINITION. The byte serialisation of event records (30_encoding.md R66 to R71), a pure function of the abstract records, and
its reader, which treats every reserved tag and field value as invalid (R73). -/

namespace Sys2Proof.Machine

/-- A `u8` field. -/
def u8 (n : Nat) : List Byte := leBytes 1 n

/-- A `Nat` field, "serialised as `u64` holding the value modulo 2^64" (R66). -/
def u64 (n : Nat) : List Byte := leBytes 8 (n % 2 ^ 64)

/-- An array of sixteen words, its elements in index order (R66). -/
def blockBytes (m : Block) : List Byte := m.toList.flatMap wordBytes

/-- The tag codes (R66). -/
def Event.tag : Event → Nat
  | .preprocess _ => 0
  | .chunkStart _ => 1
  | .round _ => 2
  | .chunkEnd _ => 3
  | .done _ => 4

/-- "The record length is determined by the tag alone"; tags 5..255 are reserved (R66). -/
def recordLength : Nat → Option Nat
  | 0 => some 74
  | 1 => some 105
  | 2 => some 98
  | 3 => some 89
  | 4 => some 49
  | _ => none

/-- A record as bytes: the tag and then the fields in the order of R67 to R71. -/
def serialize : Event → List Byte
  | .preprocess r =>
    u8 0 ++ u64 r.origBytes ++ u64 r.origBits ++ u64 r.paddedBytes ++ u64 r.paddedBits ++ u8 r.bytesAdded ++
      u64 r.chunkCount ++ r.initDigest.toList
  | .chunkStart r => u8 1 ++ u64 r.chunk ++ blockBytes r.words ++ quadBytes r.hashIn ++ quadBytes r.regs
  | .round r =>
    u8 2 ++ u64 r.chunk ++ u8 r.round.toNat ++ u8 r.step ++ u8 (familyCode r.fam) ++ u8 r.g.toNat ++ wordBytes r.mword ++
      u8 r.shift.toNat ++ wordBytes r.k ++ wordBytes r.f ++ wordBytes r.sum ++ wordBytes r.rotated ++
      quadBytes r.before ++ quadBytes r.after ++ r.preview.toList
  | .chunkEnd r =>
    u8 3 ++ u64 r.chunk ++ quadBytes r.hashBefore ++ quadBytes r.regsFinal ++ quadBytes r.hashAfter ++ r.digest.toList
  | .done r => u8 4 ++ quadBytes r.hash ++ r.digest.toList

/-- The serialised trace: the concatenation of its records in trace order (R66). -/
def serializeTrace (events : List Event) : List Byte := events.flatMap serialize

/-- The integer field of `n` bytes at offset `off`. -/
def fieldNat (bs : List Byte) (off n : Nat) : Nat := leValue ((bs.drop off).take n)

/-- The `u32` field at offset `off`. -/
def fieldWord (bs : List Byte) (off : Nat) : Word := BitVec.ofNat 32 (fieldNat bs off 4)

/-- The `4 × u32` field at offset `off`. -/
def fieldQuad (bs : List Byte) (off : Nat) : Quad :=
  ⟨fieldWord bs off, fieldWord bs (off + 4), fieldWord bs (off + 8), fieldWord bs (off + 12)⟩

/-- The `16 × u32` field at offset `off`. -/
def fieldBlock (bs : List Byte) (off : Nat) : Block := Vector.ofFn fun j : Fin 16 => fieldWord bs (off + 4 * j)

/-- The `Str32` field at offset `off`. -/
def fieldStr32 (bs : List Byte) (off : Nat) : Str32 := Vector.ofFn fun k : Fin 32 => bs.getD (off + k) 0

/-- Preprocess, by the offsets of R67. -/
def parsePreprocess (bs : List Byte) : PreprocessRec where
  origBytes := fieldNat bs 1 8
  origBits := fieldNat bs 9 8
  paddedBytes := fieldNat bs 17 8
  paddedBits := fieldNat bs 25 8
  bytesAdded := fieldNat bs 33 1
  chunkCount := fieldNat bs 34 8
  initDigest := fieldStr32 bs 42

/-- ChunkStart, by the offsets of R68. -/
def parseChunkStart (bs : List Byte) : ChunkStartRec where
  chunk := fieldNat bs 1 8
  words := fieldBlock bs 9
  hashIn := fieldQuad bs 73
  regs := fieldQuad bs 89

/-- Round, by the offsets of R69; `none` where a field value is reserved or out of the field's range (R69, R73). -/
def parseRound (bs : List Byte) : Option RoundRec :=
  match familyOfCode (fieldNat bs 11 1) with
  | none => none
  | some fam =>
    if fieldNat bs 9 1 < 64 ∧ fieldNat bs 12 1 < 16 ∧ fieldNat bs 17 1 < 32 then
      some
        { chunk := fieldNat bs 1 8, round := BitVec.ofNat 6 (fieldNat bs 9 1), step := fieldNat bs 10 1, fam := fam,
          g := BitVec.ofNat 4 (fieldNat bs 12 1), mword := fieldWord bs 13, shift := BitVec.ofNat 5 (fieldNat bs 17 1),
          k := fieldWord bs 18, f := fieldWord bs 22, sum := fieldWord bs 26, rotated := fieldWord bs 30,
          before := fieldQuad bs 34, after := fieldQuad bs 50, preview := fieldStr32 bs 66 }
    else none

/-- ChunkEnd, by the offsets of R70. -/
def parseChunkEnd (bs : List Byte) : ChunkEndRec where
  chunk := fieldNat bs 1 8
  hashBefore := fieldQuad bs 9
  regsFinal := fieldQuad bs 25
  hashAfter := fieldQuad bs 41
  digest := fieldStr32 bs 57

/-- Done, by the offsets of R71. -/
def parseDone (bs : List Byte) : DoneRec where
  hash := fieldQuad bs 1
  digest := fieldStr32 bs 17

/-- One serialised record read back; `none` for a reserved tag or a wrong length (R66, R73; log entry 18). -/
def parseRecord (bs : List Byte) : Option Event :=
  match bs with
  | [] => none
  | tag :: _ =>
    if recordLength tag.toNat = some bs.length then
      match tag.toNat with
      | 0 => some (.preprocess (parsePreprocess bs))
      | 1 => some (.chunkStart (parseChunkStart bs))
      | 2 => (parseRound bs).map .round
      | 3 => some (.chunkEnd (parseChunkEnd bs))
      | 4 => some (.done (parseDone bs))
      | _ => none
    else none

/-- The records of a serialised trace, at most `fuel` of them; each record's length follows from its tag (R66). -/
def parseTrace : Nat → List Byte → Option (List Event)
  | _, [] => some []
  | 0, _ :: _ => none
  | fuel + 1, tag :: rest =>
    match recordLength tag.toNat with
    | none => none
    | some len =>
      match parseRecord ((tag :: rest).take len), parseTrace fuel ((tag :: rest).drop len) with
      | some e, some es => some (e :: es)
      | _, _ => none

/-- The records whose every field fits its serialised width: `Nat` fields below 2^64, `u8` fields below 256 (R66, D20). -/
def Event.fits : Event → Bool
  | .preprocess r =>
    r.origBytes < 2 ^ 64 && r.origBits < 2 ^ 64 && r.paddedBytes < 2 ^ 64 && r.paddedBits < 2 ^ 64 && r.bytesAdded < 256 &&
      r.chunkCount < 2 ^ 64
  | .chunkStart r => r.chunk < 2 ^ 64
  | .round r => r.chunk < 2 ^ 64 && r.step < 256
  | .chunkEnd r => r.chunk < 2 ^ 64
  | .done _ => true

end Sys2Proof.Machine
end

