-- ==== Sys2Proof/Safety.lean ====
section
/-! DEFINITION. What claims speak of: the invariant of the engine, between any two moves of either agent, the launch premises, and
runs. -/

namespace Sys2Proof.Machine

/-- PRE has run since the last launch: `PH ∈ {CST, RND, CEN, DON, HALT}`. -/
def padded (s : State) : Bool :=
  match s.ph with
  | .idle => false
  | .pre => false
  | .cst => true
  | .rnd => true
  | .cen => true
  | .don => true
  | .halt => true

/-- A chunk is in progress: `PH ∈ {CST, RND, CEN}`, where `CIDX` is meaningful (10_state.md R14). -/
def inChunk (s : State) : Bool :=
  match s.ph with
  | .cst => true
  | .rnd => true
  | .cen => true
  | .idle => false
  | .pre => false
  | .don => false
  | .halt => false

/-- The value R15 gives `EVN` at each position of the sequencer. -/
def eventCount (s : State) : Nat :=
  match s.ph with
  | .idle => 0
  | .pre => 0
  | .cst => 1 + 66 * s.cidx
  | .rnd => 1 + 66 * s.cidx + (1 + s.ridx.toNat)
  | .cen => 1 + 66 * s.cidx + 65
  | .don => 1 + 66 * s.nchunk
  | .halt => 2 + 66 * s.nchunk

/-- The invariant of the engine. -/
structure Inv (s : State) : Prop where
  /-- The memories are in their canonical form. -/
  canonical : Memory.wf s.msg ∧ Memory.wf s.pmsg ∧ Cells.wf s.trace
  /-- `MSG` holds exactly the indices below `MLEN` (20_memory.md R40, R41). -/
  msgRange : Cells.Covers s.msg s.mlen
  /-- `PMSG` holds exactly the indices below `PLEN` (R40, R42). -/
  pmsgRange : Cells.Covers s.pmsg s.plen
  /-- `TRACE` holds exactly the slots below `EVN` (R40, R43). -/
  traceRange : Cells.Covers s.trace s.evn
  /-- `PLEN = 64·NCHUNK`, and `NCHUNK` is the chunk count of the message once PRE has run, 0 before (41_padding_framer.md
  R104, 60_exceptions.md R200). -/
  geometry : s.plen = 64 * s.nchunk ∧ s.nchunk = (if padded s then chunkCountOf s.mlen else 0)
  /-- `PMSG` is the padded message once PRE has run (R42). -/
  padding : padded s = true → ∀ b, readMessage s = some b → Cells.readSeq s.pmsg 0 s.plen = some (pad b)
  /-- `CIDX < NCHUNK` while a chunk is in progress, 0 otherwise (10_state.md R14). -/
  chunkIndex : if inChunk s then s.cidx < s.nchunk else s.cidx = 0
  /-- `RIDX` is 0 unless `PH = RND` (R14). -/
  roundIndex : s.ph ≠ .rnd → s.ridx = 0
  /-- `EVN` counts as R15 says. -/
  events : s.evn = eventCount s
  /-- `H` is the untouched initial HashState until PRE has run (R26, R200). -/
  untouched : padded s = false → s.h = ivrom
  /-- `ERR = 1` implies `PH = IDLE` and `EVN = 0` (R17), and `IDLE` has no message (R26). -/
  idle : (s.err = true → s.ph = .idle) ∧ (s.ph = .idle → s.mlen = 0)
  /-- `M[j] = ChunkWord(CIDX, j)` while `PH ∈ {RND, CEN}` (R13). -/
  buffer : s.ph = .rnd ∨ s.ph = .cen → chunkBlock s.pmsg s.cidx = some s.m
  /-- At the end of a run `DIGEST` formats `H` and the last event is Done with them (70_reset_and_hazards.md R214). -/
  finished : s.ph = .halt →
    s.digest = fmt s.h ∧ Cells.read s.trace (s.evn - 1) = some (.done { hash := s.h, digest := s.digest })

/-- The host reads every ROM entry at its index, and an index that names no entry is refused (20_memory.md R44, 60_exceptions.md
R204). -/
structure RomsReadable (s : State) : Prop where
  krom : ∀ i, (i < 64 → hostRead (.krom i) s = .ok (.word (krom (BitVec.ofNat 6 i)))) ∧
    (64 ≤ i → ∃ r, hostRead (.krom i) s = .error r)
  srom : ∀ i, (i < 64 → hostRead (.srom i) s = .ok (.rotation (srom (BitVec.ofNat 6 i)))) ∧
    (64 ≤ i → ∃ r, hostRead (.srom i) s = .error r)
  ivrom : hostRead (.ivrom 0) s = .ok (.word ivrom.a) ∧ hostRead (.ivrom 1) s = .ok (.word ivrom.b) ∧
    hostRead (.ivrom 2) s = .ok (.word ivrom.c) ∧ hostRead (.ivrom 3) s = .ok (.word ivrom.d) ∧
    ∀ k, 4 ≤ k → ∃ r, hostRead (.ivrom k) s = .error r
  fdesc : (∀ fam, hostRead (.fdesc (familyCode fam)) s = .ok (.strings (fdescRom fam))) ∧
    ∀ k, 4 ≤ k → ∃ r, hostRead (.fdesc k) s = .error r

/-- What R213 says holds at the first step of every run on message `b`. -/
structure LaunchPremises (b : List Byte) (s : State) : Prop where
  phase : s.ph = .pre ∧ s.cidx = 0 ∧ s.ridx = 0
  counters : s.evn = 0 ∧ s.err = false
  hash : s.h = ivrom
  length : s.mlen = b.length
  message : ∀ k, Cells.read s.msg k = b[k]?
  empty : s.pmsg = [] ∧ s.trace = [] ∧ s.plen = 0 ∧ s.nchunk = 0

/-- `k` moves of the system, all of them next states. -/
def runs (k : Nat) (s t : State) : Prop := Host.Core.run Sys2Proof.core k s = .next t

/-- The number of steps of a run on message `b` (44_trace_recorder.md R151). -/
def runLength (b : List Byte) : Nat := 2 + 66 * chunkCountOf b.length

end Sys2Proof.Machine
end

