-- ==== Sys2Proof/Certificates/Slice0/Obligations.lean ====
section
/-! DEFINITION. The statements for the provers. OBLIGATIONS.json lists them. -/

open Sys2Proof Sys2Proof.Machine

/-! ## The step code (30_encoding.md) -/

/-- 30_encoding.md R60 to R62: no bit of a step code is dropped. -/
def Obligations.DecodeOfEncodeIsTheInstruction : Prop :=
  ∀ i : Instr, i.WellFormed → decode (encode i) = .ok i

/-- R62: what the decoder accepts is a well-formed operation of a row that selects the code, and re-encodes to the code. -/
def Obligations.EncodeOfDecodeIsTheStepCode : Prop :=
  ∀ (sc : StepCode) (i : Instr), decode sc = .ok i →
    i.WellFormed ∧ encode i = sc ∧ i.row ∈ opcodeMap ∧ sc &&& i.row.mask = i.row.pattern

/-- R63: the 59 codes 0x05..0x3F, and no others, are refused by name, and the sequencer selects none of them. -/
def Obligations.ReservedStepCodesAreRefused : Prop :=
  (∀ sc : StepCode, decode sc = .error (.reservedStepCode sc) ↔ 0x05 ≤ sc.toNat ∧ sc.toNat ≤ 0x3F) ∧
  ((List.range 128).filter (fun v => 0x05 ≤ v ∧ v ≤ 0x3F)).length = 59 ∧
  (∀ s : State, ¬ (0x05 ≤ (fetchCode s).toNat ∧ (fetchCode s).toNat ≤ 0x3F))

/-- Words written out bit by bit from the encodings of R60 and R62. -/
def Obligations.SampleStepCodesDecode : Prop :=
  decode 0b0000000#7 = .ok .pre ∧ decode 0b0000001#7 = .ok .cst ∧ decode 0b0000010#7 = .ok .cen ∧
  decode 0b0000011#7 = .ok .don ∧ decode 0b0000100#7 = .ok .hlt ∧ decode 0b1000101#7 = .ok (.rndF 5) ∧
  decode 0b1010011#7 = .ok (.rndG 19) ∧ decode 0b1101111#7 = .ok (.rndH 47) ∧ decode 0b1111111#7 = .ok (.rndI 63)

/-- The table of R60 (the step code of each sequencer position) with the map of R62 (the operation of each step code). -/
def Obligations.SequencerPositionSelectsOperation : Prop :=
  ∀ s : State,
    (s.ph = .idle → (fetchCode s).toNat = 0x04 ∧ decode (fetchCode s) = .ok .hlt) ∧
    (s.ph = .pre → (fetchCode s).toNat = 0x00 ∧ decode (fetchCode s) = .ok .pre) ∧
    (s.ph = .cst → (fetchCode s).toNat = 0x01 ∧ decode (fetchCode s) = .ok .cst) ∧
    (s.ph = .cen → (fetchCode s).toNat = 0x02 ∧ decode (fetchCode s) = .ok .cen) ∧
    (s.ph = .don → (fetchCode s).toNat = 0x03 ∧ decode (fetchCode s) = .ok .don) ∧
    (s.ph = .halt → (fetchCode s).toNat = 0x04 ∧ decode (fetchCode s) = .ok .hlt) ∧
    (s.ph = .rnd → (fetchCode s).toNat = 0x40 + s.ridx.toNat ∧
      (s.ridx.toNat ≤ 15 → decode (fetchCode s) = .ok (.rndF s.ridx)) ∧
      (16 ≤ s.ridx.toNat → s.ridx.toNat ≤ 31 → decode (fetchCode s) = .ok (.rndG s.ridx)) ∧
      (32 ≤ s.ridx.toNat → s.ridx.toNat ≤ 47 → decode (fetchCode s) = .ok (.rndH s.ridx)) ∧
      (48 ≤ s.ridx.toNat → decode (fetchCode s) = .ok (.rndI s.ridx)))

/-! ## A step (00_scope.md R9) -/

/-- A move of the sequencer runs the operation that its position selects: `exec` of the decoded operation and nothing else; a move
of the host is its command with the engine's own parameters. That `moves` says whose move it is, that the sequencer moves when it
is empty and that an entry is used up, is the model's choice (log entry 5). -/
def Obligations.StepRunsTheDecodedOperation : Prop :=
  ∀ (s : State) (i : Instr),
    (s.moves = [] → decode (fetchCode s) = .ok i → step s = exec i s) ∧
    (∀ rest, s.moves = .sequencer :: rest → decode (fetchCode s) = .ok i → step s = exec i { s with moves := rest }) ∧
    (∀ c rest, s.moves = .host c :: rest → step s = hostExec Config.params c { s with moves := rest })

/-- `withFetchWord` puts the sequencer at the operation of a table word, so that the next step is exactly that operation (the
model's own means, log entry 6). -/
def Obligations.PositionedWordIsTheNextStep : Prop :=
  ∀ (i : Instr) (s : State), i.WellFormed →
    decodeTableWord 8 (encode i).toNat = some i ∧
    step (s.withFetchWord 8 (encode i).toNat) = exec i (s.withFetchWord 8 (encode i).toNat)

/-! ## The control operations (44_trace_recorder.md) -/

/-- R154. The hypothesis is that `MSG` holds the bytes `b` of a message of length `MLEN`. -/
def Obligations.PrePadsTheMessage : Prop :=
  ∀ (s : State) (b : List Byte), s.ph = .pre → b.length = s.mlen →
    (∀ k, k < s.mlen → Cells.read s.msg k = b[k]?) →
    exec .pre s = .next
      { s with
        pmsg := Cells.writeSeq s.pmsg 0 (pad b)
        plen := (pad b).length
        nchunk := (pad b).length / 64
        trace := Cells.write s.trace s.evn
          (.preprocess
            { origBytes := s.mlen, origBits := 8 * s.mlen, paddedBytes := (pad b).length, paddedBits := 8 * (pad b).length,
              bytesAdded := (pad b).length - s.mlen, chunkCount := (pad b).length / 64, initDigest := fmt s.h })
        evn := s.evn + 1
        ph := .cst
        cidx := 0
        ridx := 0 } ∧
    (s.h = ivrom → (fmt s.h).toList = asciiOf "0123456789abcdeffedcba9876543210")

/-- R155 with R111 and R133. The hypothesis is that `PMSG` holds the 64 bytes `bs` of chunk `CIDX`. -/
def Obligations.CstLoadsTheChunk : Prop :=
  ∀ (s : State) (bs : List Byte), s.ph = .cst → bs.length = 64 →
    (∀ k, k < 64 → Cells.read s.pmsg (64 * s.cidx + k) = bs[k]?) →
    ∃ words : Block,
      (∀ j (hj : j < 16), (words[j]).toNat =
        (bs.getD (4 * j) 0).toNat + 2 ^ 8 * (bs.getD (4 * j + 1) 0).toNat + 2 ^ 16 * (bs.getD (4 * j + 2) 0).toNat +
          2 ^ 24 * (bs.getD (4 * j + 3) 0).toNat) ∧
      exec .cst s = .next
        { s with
          m := words
          w := s.h
          trace := Cells.write s.trace s.evn (.chunkStart { chunk := s.cidx, words := words, hashIn := s.h, regs := s.h })
          evn := s.evn + 1
          ph := .rnd
          ridx := 0 }

/-- R157 with R134: the fold, the ChunkEnd event with `hashBefore` from before it and `hashAfter`, `digest` from after it, and the
next chunk or DON. -/
def Obligations.CenFoldsTheChunk : Prop :=
  ∀ s : State, s.ph = .cen →
    let h' : Quad := ⟨s.h.a + s.w.a, s.h.b + s.w.b, s.h.c + s.w.c, s.h.d + s.w.d⟩
    exec .cen s = .next
      { s with
        h := h'
        trace := Cells.write s.trace s.evn
          (.chunkEnd { chunk := s.cidx, hashBefore := s.h, regsFinal := s.w, hashAfter := h', digest := fmt h' })
        evn := s.evn + 1
        ph := if s.cidx + 1 < s.nchunk then .cst else .don
        cidx := if s.cidx + 1 < s.nchunk then s.cidx + 1 else 0
        ridx := 0 }

/-- R158: `DIGEST`, the Done event with it, and the status bits that follow from `PH = HALT`. -/
def Obligations.DonWritesTheDigest : Prop :=
  ∀ s : State, s.ph = .don →
    ∃ t, exec .don s = .next t ∧
      t = { s with
            digest := fmt s.h
            trace := Cells.write s.trace s.evn (.done { hash := s.h, digest := fmt s.h })
            evn := s.evn + 1
            ph := .halt
            cidx := 0
            ridx := 0 } ∧
      (status t).getLsbD 1 = true ∧ (status t).getLsbD 0 = false

/-- R159 and R209: HLT changes nothing, and in `IDLE` and `HALT` a move of the sequencer is HLT. That the model counts "no step" as
a step that leaves the state as it is, is its own choice (log entry 8). -/
def Obligations.HltChangesNothing : Prop :=
  ∀ s : State, (s.ph = .idle ∨ s.ph = .halt) →
    decode (fetchCode s) = .ok .hlt ∧ exec .hlt s = .next s ∧ (s.moves = [] → step s = .next s)

/-! ## The round operations (43_round_engine.md) -/

/-- R129, with the shift amount that R21's cycle gives round `i`. -/
def Obligations.RndFComputesTheRound : Prop :=
  ∀ s : State, s.ph = .rnd → s.ridx.toNat ≤ 15 →
    let f : Word := (s.w.b &&& s.w.c) ||| (~~~s.w.b &&& s.w.d)
    let mword : Word := s.m[s.ridx.toNat % 16]
    let sum : Word := s.w.a + f + krom s.ridx + mword
    let n := (srom s.ridx).toNat
    let rotated : Word := BitVec.ofNat 32 ((sum.toNat * 2 ^ n) % 2 ^ 32 + sum.toNat / 2 ^ (32 - n))
    let after : Quad := ⟨s.w.d, s.w.b + rotated, s.w.b, s.w.c⟩
    n = [7, 12, 17, 22].getD (s.ridx.toNat % 4) 0 ∧
    exec (.rndF s.ridx) s = .next
      { s with
        w := after
        trace := Cells.write s.trace s.evn
          (.round
            { chunk := s.cidx, round := s.ridx, step := s.ridx.toNat + 1, fam := .F,
              g := BitVec.ofNat 4 s.ridx.toNat, mword := mword, shift := srom s.ridx, k := krom s.ridx, f := f, sum := sum,
              rotated := rotated, before := s.w, after := after,
              preview := fmt ⟨s.h.a + after.a, s.h.b + after.b, s.h.c + after.c, s.h.d + after.d⟩ })
        evn := s.evn + 1
        ridx := s.ridx + 1 }

/-- R130, with the shift amount that R21's cycle gives round `i`. -/
def Obligations.RndGComputesTheRound : Prop :=
  ∀ s : State, s.ph = .rnd → 16 ≤ s.ridx.toNat → s.ridx.toNat ≤ 31 →
    let f : Word := (s.w.d &&& s.w.b) ||| (~~~s.w.d &&& s.w.c)
    let mword : Word := s.m[(5 * s.ridx.toNat + 1) % 16]
    let sum : Word := s.w.a + f + krom s.ridx + mword
    let n := (srom s.ridx).toNat
    let rotated : Word := BitVec.ofNat 32 ((sum.toNat * 2 ^ n) % 2 ^ 32 + sum.toNat / 2 ^ (32 - n))
    let after : Quad := ⟨s.w.d, s.w.b + rotated, s.w.b, s.w.c⟩
    n = [5, 9, 14, 20].getD (s.ridx.toNat % 4) 0 ∧
    exec (.rndG s.ridx) s = .next
      { s with
        w := after
        trace := Cells.write s.trace s.evn
          (.round
            { chunk := s.cidx, round := s.ridx, step := s.ridx.toNat + 1, fam := .G,
              g := BitVec.ofNat 4 (5 * s.ridx.toNat + 1), mword := mword, shift := srom s.ridx, k := krom s.ridx, f := f,
              sum := sum, rotated := rotated, before := s.w, after := after,
              preview := fmt ⟨s.h.a + after.a, s.h.b + after.b, s.h.c + after.c, s.h.d + after.d⟩ })
        evn := s.evn + 1
        ridx := s.ridx + 1 }

/-- R131, with the shift amount that R21's cycle gives round `i`. -/
def Obligations.RndHComputesTheRound : Prop :=
  ∀ s : State, s.ph = .rnd → 32 ≤ s.ridx.toNat → s.ridx.toNat ≤ 47 →
    let f : Word := s.w.b ^^^ s.w.c ^^^ s.w.d
    let mword : Word := s.m[(3 * s.ridx.toNat + 5) % 16]
    let sum : Word := s.w.a + f + krom s.ridx + mword
    let n := (srom s.ridx).toNat
    let rotated : Word := BitVec.ofNat 32 ((sum.toNat * 2 ^ n) % 2 ^ 32 + sum.toNat / 2 ^ (32 - n))
    let after : Quad := ⟨s.w.d, s.w.b + rotated, s.w.b, s.w.c⟩
    n = [4, 11, 16, 23].getD (s.ridx.toNat % 4) 0 ∧
    exec (.rndH s.ridx) s = .next
      { s with
        w := after
        trace := Cells.write s.trace s.evn
          (.round
            { chunk := s.cidx, round := s.ridx, step := s.ridx.toNat + 1, fam := .H,
              g := BitVec.ofNat 4 (3 * s.ridx.toNat + 5), mword := mword, shift := srom s.ridx, k := krom s.ridx, f := f,
              sum := sum, rotated := rotated, before := s.w, after := after,
              preview := fmt ⟨s.h.a + after.a, s.h.b + after.b, s.h.c + after.c, s.h.d + after.d⟩ })
        evn := s.evn + 1
        ridx := s.ridx + 1 }

/-- R132: as the others, and after round 63 the chunk ends. -/
def Obligations.RndIComputesTheRound : Prop :=
  ∀ s : State, s.ph = .rnd → 48 ≤ s.ridx.toNat →
    let f : Word := s.w.c ^^^ (s.w.b ||| (s.w.d ^^^ 0xFFFFFFFF))
    let mword : Word := s.m[(7 * s.ridx.toNat) % 16]
    let sum : Word := s.w.a + f + krom s.ridx + mword
    let n := (srom s.ridx).toNat
    let rotated : Word := BitVec.ofNat 32 ((sum.toNat * 2 ^ n) % 2 ^ 32 + sum.toNat / 2 ^ (32 - n))
    let after : Quad := ⟨s.w.d, s.w.b + rotated, s.w.b, s.w.c⟩
    n = [6, 10, 15, 21].getD (s.ridx.toNat % 4) 0 ∧
    exec (.rndI s.ridx) s = .next
      { s with
        w := after
        trace := Cells.write s.trace s.evn
          (.round
            { chunk := s.cidx, round := s.ridx, step := s.ridx.toNat + 1, fam := .I,
              g := BitVec.ofNat 4 (7 * s.ridx.toNat), mword := mword, shift := srom s.ridx, k := krom s.ridx, f := f,
              sum := sum, rotated := rotated, before := s.w, after := after,
              preview := fmt ⟨s.h.a + after.a, s.h.b + after.b, s.h.c + after.c, s.h.d + after.d⟩ })
        evn := s.evn + 1
        ph := if s.ridx.toNat < 63 then .rnd else .cen
        ridx := if s.ridx.toNat < 63 then s.ridx + 1 else 0 }

/-- R156 and R161, for the round operation that the sequencer selects. -/
def Obligations.RoundEventRecordsTheRound : Prop :=
  ∀ s : State, s.ph = .rnd → ∀ i, decode (fetchCode s) = .ok i →
    ∃ t r, exec i s = .next t ∧ Cells.read t.trace s.evn = some (.round r) ∧
      r.chunk = s.cidx ∧ r.round = s.ridx ∧ r.step = s.ridx.toNat + 1 ∧ 1 ≤ r.step ∧ r.step ≤ 64 ∧
      (s.ridx.toNat / 16 = 0 → r.name = "F" ∧ r.fdesc = "(b & c) | (~b & d)" ∧ r.gdesc = "i") ∧
      (s.ridx.toNat / 16 = 1 → r.name = "G" ∧ r.fdesc = "(d & b) | (~d & c)" ∧ r.gdesc = "(5i + 1) mod 16") ∧
      (s.ridx.toNat / 16 = 2 → r.name = "H" ∧ r.fdesc = "b ^ c ^ d" ∧ r.gdesc = "(3i + 5) mod 16") ∧
      (s.ridx.toNat / 16 = 3 → r.name = "I" ∧ r.fdesc = "c ^ (b | ~d)" ∧ r.gdesc = "(7i) mod 16") ∧
      (let q := roundFn s.ridx s.w s.m
       r.g = q.g ∧ r.mword = q.mword ∧ r.mword = s.m[r.g.toNat] ∧ r.shift = q.s ∧ r.shift = srom s.ridx ∧
       r.k = q.k ∧ r.k = krom s.ridx ∧ r.f = q.f ∧ r.sum = q.sum ∧ r.rotated = q.rotated ∧ r.after = q.regs) ∧
      r.before = s.w ∧ r.after = t.w ∧
      r.after.a = r.before.d ∧ r.after.b = r.before.b + r.rotated ∧ r.after.c = r.before.b ∧ r.after.d = r.before.c ∧
      r.preview = fmt ⟨s.h.a + t.w.a, s.h.b + t.w.b, s.h.c + t.w.c, s.h.d + t.w.d⟩ ∧ t.h = s.h

/-! ## Frames -/

/-- The frame of the four round operations (10_state.md R27, column RND.*): `W`, the position, `EVN` and one slot of `TRACE`
change, and nothing else; every byte of `MSG` and `PMSG` and every other slot reads as before. -/
def Obligations.RoundOperationsFrame : Prop :=
  ∀ (s t : State) (i : BitVec 6),
    (exec (.rndF i) s = .next t ∨ exec (.rndG i) s = .next t ∨ exec (.rndH i) s = .next t ∨ exec (.rndI i) s = .next t) →
    t.h = s.h ∧ t.m = s.m ∧ t.cidx = s.cidx ∧ t.mlen = s.mlen ∧ t.plen = s.plen ∧ t.nchunk = s.nchunk ∧ t.err = s.err ∧
    t.digest = s.digest ∧ t.moves = s.moves ∧ t.freeEpoch = s.freeEpoch ∧
    (∀ a, Cells.read t.msg a = Cells.read s.msg a) ∧ (∀ a, Cells.read t.pmsg a = Cells.read s.pmsg a) ∧
    (∀ n, n ≠ s.evn → Cells.read t.trace n = Cells.read s.trace n)

/-- The frames of the control operations (R27): PRE writes `PMSG` at 0..PLEN−1, `PLEN`, `NCHUNK`; CST `M` and `W`; CEN `H`; DON
`DIGEST`; each the position, `EVN` and one slot of `TRACE`; HLT nothing. That PRE leaves `PMSG` at and above the new `PLEN` as it was
is the model's reading of R154's `MemWrite(PMSG, 0, PLEN, pm)` with R8 (DEDUCED, log entry 17). -/
def Obligations.ControlOperationsFrame : Prop :=
  (∀ (s t : State), exec .pre s = .next t →
    t.h = s.h ∧ t.w = s.w ∧ t.m = s.m ∧ t.mlen = s.mlen ∧ t.err = s.err ∧ t.digest = s.digest ∧ t.moves = s.moves ∧
    t.freeEpoch = s.freeEpoch ∧ (∀ a, Cells.read t.msg a = Cells.read s.msg a) ∧
    (∀ a, t.plen ≤ a → Cells.read t.pmsg a = Cells.read s.pmsg a) ∧
    (∀ n, n ≠ s.evn → Cells.read t.trace n = Cells.read s.trace n)) ∧
  (∀ (s t : State), exec .cst s = .next t →
    t.h = s.h ∧ t.cidx = s.cidx ∧ t.mlen = s.mlen ∧ t.plen = s.plen ∧ t.nchunk = s.nchunk ∧ t.err = s.err ∧
    t.digest = s.digest ∧ t.moves = s.moves ∧ t.freeEpoch = s.freeEpoch ∧
    (∀ a, Cells.read t.msg a = Cells.read s.msg a) ∧ (∀ a, Cells.read t.pmsg a = Cells.read s.pmsg a) ∧
    (∀ n, n ≠ s.evn → Cells.read t.trace n = Cells.read s.trace n)) ∧
  (∀ (s t : State), exec .cen s = .next t →
    t.w = s.w ∧ t.m = s.m ∧ t.mlen = s.mlen ∧ t.plen = s.plen ∧ t.nchunk = s.nchunk ∧ t.err = s.err ∧
    t.digest = s.digest ∧ t.moves = s.moves ∧ t.freeEpoch = s.freeEpoch ∧
    (∀ a, Cells.read t.msg a = Cells.read s.msg a) ∧ (∀ a, Cells.read t.pmsg a = Cells.read s.pmsg a) ∧
    (∀ n, n ≠ s.evn → Cells.read t.trace n = Cells.read s.trace n)) ∧
  (∀ (s t : State), exec .don s = .next t →
    t.h = s.h ∧ t.w = s.w ∧ t.m = s.m ∧ t.mlen = s.mlen ∧ t.plen = s.plen ∧ t.nchunk = s.nchunk ∧ t.err = s.err ∧
    t.moves = s.moves ∧ t.freeEpoch = s.freeEpoch ∧
    (∀ a, Cells.read t.msg a = Cells.read s.msg a) ∧ (∀ a, Cells.read t.pmsg a = Cells.read s.pmsg a) ∧
    (∀ n, n ≠ s.evn → Cells.read t.trace n = Cells.read s.trace n)) ∧
  (∀ (s t : State), exec .hlt s = .next t → t = s)

/-- R152: every operation but HLT (which has no step) emits exactly one event, into slot `EVN`, and counts it; a host command
leaves no slot (R191, R200, R202). -/
def Obligations.EveryOperationEmitsOnce : Prop :=
  (∀ (i : Instr) (s t : State), i ≠ .hlt → exec i s = .next t →
    t.evn = s.evn + 1 ∧ (∃ e, t.trace = Cells.write s.trace s.evn e ∧ Cells.read t.trace s.evn = some e) ∧
    ∀ n, n ≠ s.evn → Cells.read t.trace n = Cells.read s.trace n) ∧
  (∀ (p : Params) (c : HostCommand) (s t : State), hostExec p c s = .next t →
    t.evn = 0 ∧ ∀ n, Cells.read t.trace n = none)

/-- R11, R139: `H` is written by CEN, and otherwise only by a host command, which sets it to `IVROM`; `M` and `W` and `DIGEST` have
the writers R12, R13 and R19 name. -/
def Obligations.RegistersHaveOnlyTheirWriters : Prop :=
  (∀ (i : Instr) (s t : State), exec i s = .next t →
    (t.h ≠ s.h → i = .cen) ∧ (t.m ≠ s.m → i = .cst) ∧ (t.digest ≠ s.digest → i = .don) ∧
    (t.w ≠ s.w → i = .cst ∨ ∃ k, i = .rndF k ∨ i = .rndG k ∨ i = .rndH k ∨ i = .rndI k)) ∧
  (∀ (p : Params) (c : HostCommand) (s t : State), hostExec p c s = .next t → t.h = ivrom)

/-! ## Control transfer and stops -/

/-- The table of R151, for a move of the sequencer that answers a next state, from a legal position (`CIDX` and `RIDX` 0 where R14
says so). -/
def Obligations.ControlTransferTable : Prop :=
  ∀ s t : State, engineStep s = .next t →
    (s.ph = .pre → t.ph = .cst ∧ t.cidx = 0 ∧ t.ridx = 0) ∧
    (s.ph = .cst → t.ph = .rnd ∧ t.cidx = s.cidx ∧ t.ridx = 0) ∧
    (s.ph = .rnd → s.ridx.toNat < 63 → t.ph = .rnd ∧ t.cidx = s.cidx ∧ t.ridx.toNat = s.ridx.toNat + 1) ∧
    (s.ph = .rnd → s.ridx.toNat = 63 → t.ph = .cen ∧ t.cidx = s.cidx ∧ t.ridx = 0) ∧
    (s.ph = .cen → s.cidx + 1 < s.nchunk → t.ph = .cst ∧ t.cidx = s.cidx + 1 ∧ t.ridx = 0) ∧
    (s.ph = .cen → s.cidx + 1 = s.nchunk → t.ph = .don ∧ t.cidx = 0 ∧ t.ridx = 0) ∧
    (s.ph = .don → t.ph = .halt ∧ t.cidx = 0 ∧ t.ridx = 0) ∧
    (s.ph = .idle ∨ s.ph = .halt → t = s)

/-- R151: "no data value (register, message byte) ever influences control: only `RIDX = 63` and `CIDX + 1 = NCHUNK` are tested". Two
states at the same position with the same `NCHUNK` go to the same position. -/
def Obligations.DataNeverInfluencesControl : Prop :=
  ∀ s s' t t' : State, s.ph = s'.ph → s.cidx = s'.cidx → s.ridx = s'.ridx → s.nchunk = s'.nchunk →
    engineStep s = .next t → engineStep s' = .next t' → t.ph = t'.ph ∧ t.cidx = t'.cidx ∧ t.ridx = t'.ridx

/-- The only stops of an operation (the model's choice, log entry 7, for elements that 20_memory.md R41 says do not exist): PRE
where a byte of `MSG` below `MLEN` is missing, CST where a byte of chunk `CIDX` is. -/
def Obligations.OnlyMissingElementsStopAnOperation : Prop :=
  ∀ s : State,
    (exec .pre s = .fault (.absentElement .msg) ↔ ∃ k, k < s.mlen ∧ Cells.read s.msg k = none) ∧
    (exec .cst s = .fault (.absentElement .pmsg) ↔ ∃ k, k < 64 ∧ Cells.read s.pmsg (64 * s.cidx + k) = none) ∧
    (∀ i, (∀ t, exec i s ≠ .next t) →
      (i = .pre ∧ exec i s = .fault (.absentElement .msg)) ∨ (i = .cst ∧ exec i s = .fault (.absentElement .pmsg)))

/-- R163, R192: no operation of the engine has a failing case, for any contents of `MSG`. `Inv` rules out states in which `MLEN` or
`PLEN` counts bytes that are not there, which no run reaches. -/
def Obligations.EngineNeverFails : Prop :=
  ∀ s : State, Inv s → ∃ t, engineStep s = .next t

/-- The model's choice (log entry 9): an operation applies its pseudocode whatever phase the state is in, and a round operation
takes its index from `RIDX`, not from the step code. -/
def Obligations.OperationsIgnorePhaseAndCodeIndex : Prop :=
  (∀ (i : Instr) (s : State) (p : Phase), i ≠ .hlt → exec i { s with ph := p } = exec i s) ∧
  (∀ (s : State) (i j : BitVec 6),
    exec (.rndF i) s = exec (.rndF j) s ∧ exec (.rndG i) s = exec (.rndG j) s ∧ exec (.rndH i) s = exec (.rndH j) s ∧
    exec (.rndI i) s = exec (.rndI j) s)

/-! ## The round engine's units -/

/-- R122 to R125, bit by bit: F is a multiplexer controlled by `b`, G one controlled by `d`, H the exclusive or, I as written. -/
def Obligations.BooleanFunctionsBitByBit : Prop :=
  ∀ (b c d : Word) (k : Nat), k < 32 →
    (boolFn .F b c d).getLsbD k = (if b.getLsbD k then c.getLsbD k else d.getLsbD k) ∧
    (boolFn .G b c d).getLsbD k = (if d.getLsbD k then b.getLsbD k else c.getLsbD k) ∧
    (boolFn .H b c d).getLsbD k = (b.getLsbD k ^^ c.getLsbD k ^^ d.getLsbD k) ∧
    (boolFn .I b c d).getLsbD k = (c.getLsbD k ^^ (b.getLsbD k || !d.getLsbD k))

/-- R126: the low 32 bits of the exact sum, whatever the order of the additions. -/
def Obligations.FourOperandAddition : Prop :=
  ∀ a f k m : Word,
    (add4 a f k m).toNat = (a.toNat + f.toNat + k.toNat + m.toNat) % 2 ^ 32 ∧
    add4 a f k m = a + (f + (k + m)) ∧ add4 a f k m = add4 m k f a ∧
    a.toNat + f.toNat + k.toNat + m.toNat < 2 ^ 34

/-- R127: the rotate as arithmetic, bit `k` moving to bit `(k + n) mod 32`, and its extension to every count (D18). -/
def Obligations.LeftRotate : Prop :=
  (∀ (x : Word) (n : Nat), 1 ≤ n → n ≤ 31 →
    (rotl32 x n).toNat = (x.toNat * 2 ^ n) % 2 ^ 32 + x.toNat / 2 ^ (32 - n)) ∧
  (∀ (x : Word) (n k : Nat), k < 32 → (rotl32 x n).getLsbD ((k + n) % 32) = x.getLsbD k) ∧
  (∀ (x : Word) (n : Nat), rotl32 x n = rotl32 x (n % 32)) ∧ (∀ x : Word, rotl32 x 0 = x) ∧
  (∀ i : BitVec 6, 4 ≤ (srom i).toNat ∧ (srom i).toNat ≤ 23) ∧
  (∀ (x : Word) (n : Nat), 1 ≤ n → n ≤ 31 → rotl32 (rotl32 x n) (32 - n) = x)

/-- The tables that operands are selected from by the round: `KROM` as R20 prints it, `SROM` (R21), the message-word index of every
round (R137); each family reads each word in exactly one round. -/
def Obligations.MessageWordIndexTable : Prop :=
  (List.range 64).map (fun i => krom (BitVec.ofNat 6 i)) =
    [0xd76aa478, 0xe8c7b756, 0x242070db, 0xc1bdceee, 0xf57c0faf, 0x4787c62a, 0xa8304613, 0xfd469501] ++
    [0x698098d8, 0x8b44f7af, 0xffff5bb1, 0x895cd7be, 0x6b901122, 0xfd987193, 0xa679438e, 0x49b40821] ++
    [0xf61e2562, 0xc040b340, 0x265e5a51, 0xe9b6c7aa, 0xd62f105d, 0x02441453, 0xd8a1e681, 0xe7d3fbc8] ++
    [0x21e1cde6, 0xc33707d6, 0xf4d50d87, 0x455a14ed, 0xa9e3e905, 0xfcefa3f8, 0x676f02d9, 0x8d2a4c8a] ++
    [0xfffa3942, 0x8771f681, 0x6d9d6122, 0xfde5380c, 0xa4beea44, 0x4bdecfa9, 0xf6bb4b60, 0xbebfbc70] ++
    [0x289b7ec6, 0xeaa127fa, 0xd4ef3085, 0x04881d05, 0xd9d4d039, 0xe6db99e5, 0x1fa27cf8, 0xc4ac5665] ++
    [0xf4292244, 0x432aff97, 0xab9423a7, 0xfc93a039, 0x655b59c3, 0x8f0ccc92, 0xffeff47d, 0x85845dd1] ++
    [0x6fa87e4f, 0xfe2ce6e0, 0xa3014314, 0x4e0811a1, 0xf7537e82, 0xbd3af235, 0x2ad7d2bb, 0xeb86d391] ∧
  (List.range 64).map (fun i => (srom (BitVec.ofNat 6 i)).toNat) =
    [7, 12, 17, 22, 7, 12, 17, 22, 7, 12, 17, 22, 7, 12, 17, 22] ++
    [5, 9, 14, 20, 5, 9, 14, 20, 5, 9, 14, 20, 5, 9, 14, 20] ++
    [4, 11, 16, 23, 4, 11, 16, 23, 4, 11, 16, 23, 4, 11, 16, 23] ++
    [6, 10, 15, 21, 6, 10, 15, 21, 6, 10, 15, 21, 6, 10, 15, 21] ∧
  (List.range 64).map (fun i => (gIndex (familyOf (BitVec.ofNat 6 i)) (BitVec.ofNat 6 i)).toNat) =
    [0, 1, 2, 3, 4, 5, 6, 7, 8, 9, 10, 11, 12, 13, 14, 15] ++
    [1, 6, 11, 0, 5, 10, 15, 4, 9, 14, 3, 8, 13, 2, 7, 12] ++
    [5, 8, 11, 14, 1, 4, 7, 10, 13, 0, 3, 6, 9, 12, 15, 2] ++
    [0, 7, 14, 5, 12, 3, 10, 1, 8, 15, 6, 13, 4, 11, 2, 9] ∧
  (∀ (fam : Family) (g : BitVec 4), ∃ i : BitVec 6, (familyOf i = fam ∧ gIndex fam i = g) ∧
    ∀ j : BitVec 6, familyOf j = fam ∧ gIndex fam j = g → j = i)

/-- R138: with `w_i` the registers before round `i` and `b'_i` the `b'` computed in it; for `i ≥ 3` the register file holds the last
four computed values. -/
def Obligations.RegistersHoldTheLastFourValues : Prop :=
  ∀ (w : Quad) (m : Block) (i : Nat),
    let b' := fun j => (roundFn (BitVec.ofNat 6 j) (roundsFrom w m j) m).regs.b
    let wi := roundsFrom w m i
    roundsFrom w m (i + 1) = ⟨wi.d, b' i, wi.b, wi.c⟩ ∧
    (3 ≤ i → roundsFrom w m (i + 1) = ⟨b' (i - 3), b' i, b' (i - 1), b' (i - 2)⟩) ∧
    roundsFrom w m 64 = ⟨b' 60, b' 63, b' 62, b' 61⟩

/-! ## Padding and chunks -/

/-- R104: the lengths, for every message. -/
def Obligations.PaddingGeometry : Prop :=
  ∀ b : List Byte,
    let len := b.length
    let z := ((55 - (len : Int)) % 64).toNat
    (pad b).length = len + 9 + z ∧ (pad b).length = 64 * ((len + 8) / 64 + 1) ∧
    (pad b).length / 64 = (len + 8) / 64 + 1 ∧ 9 ≤ (pad b).length - len ∧ (pad b).length - len ≤ 72 ∧
    ((pad b).length - len = 9 ↔ len % 64 = 55) ∧ ((pad b).length - len = 72 ↔ len % 64 = 56)

/-- R105 with R101 to R103: the message first, the marker, zeros, the bit length modulo 2^64 little-endian; and `Pad` is injective
below 2^61 bytes. -/
def Obligations.PaddingLayout : Prop :=
  (∀ b : List Byte,
    (pad b).length % 64 = 0 ∧ 64 ≤ (pad b).length ∧
    (pad b).take b.length = b ∧ (pad b)[b.length]? = some 0x80 ∧
    (∀ k, b.length < k → k < (pad b).length - 8 → (pad b)[k]? = some 0x00) ∧
    leValue ((pad b).drop ((pad b).length - 8)) = (8 * b.length) % 2 ^ 64) ∧
  (∀ b b' : List Byte, b.length < 2 ^ 61 → b'.length < 2 ^ 61 → pad b = pad b' → b = b')

/-- R110, R112: the slices cover a padded message exactly, in order, and a chunk's words give back its bytes. -/
def Obligations.SplitCoversTheMessage : Prop :=
  ∀ pm : List Byte, pm.length % 64 = 0 →
    (split pm).length = pm.length / 64 ∧ ((split pm).map Prod.fst).flatten = pm ∧
    ∀ ch ∈ split pm, ch.1.length = 64 ∧ ch.1 = ch.2.toList.flatMap wordBytes

/-- R113: where the length suffix and the marker land in the words of the chunks. -/
def Obligations.FramingInTheWords : Prop :=
  ∀ b : List Byte,
    ((messageBlock b (chunkCountOf b.length - 1))[14]).toNat = ((8 * b.length) % 2 ^ 64) % 2 ^ 32 ∧
    ((messageBlock b (chunkCountOf b.length - 1))[15]).toNat = ((8 * b.length) % 2 ^ 64) / 2 ^ 32 ∧
    ((messageBlock b (b.length / 64))[b.length % 64 / 4]).toNat / 2 ^ (8 * (b.length % 4)) % 2 ^ 8 = 0x80

/-! ## Digests and serialised records -/

/-- R180, R181: character `2n` is the high and `2n + 1` the low nibble of byte `n`, byte `4w + k` is bits `8k+7:8k` of word `w`, and
every character is one of `0-9`, `a-f`. -/
def Obligations.DigestCharacters : Prop :=
  ∀ (q : Quad) (w : Fin 4) (k : Fin 4),
    let word : Word := if w.val = 0 then q.a else if w.val = 1 then q.b else if w.val = 2 then q.c else q.d
    let byte := word.toNat / 2 ^ (8 * k.val) % 256
    let digits := asciiOf "0123456789abcdef"
    let n := 4 * w.val + k.val
    (fmt q).toList[2 * n]? = digits[byte / 16]? ∧ (fmt q).toList[2 * n + 1]? = digits[byte % 16]? ∧
    (fmt q).toList.length = 32 ∧
    ∀ ch ∈ (fmt q).toList, (0x30 ≤ ch.toNat ∧ ch.toNat ≤ 0x39) ∨ (0x61 ≤ ch.toNat ∧ ch.toNat ≤ 0x66)

/-- R184. -/
def Obligations.DigestRoundTrip : Prop :=
  (∀ q : Quad, parseDigest (fmt q) = some q) ∧ (∀ q q' : Quad, fmt q = fmt q' → q = q')

/-- R66, R73: the record length is determined by the tag, tags 5..255 have no record and are invalid, and the serialised trace of a
run has `123 + 6466·NCHUNK` bytes. -/
def Obligations.RecordLengthsAndReservedTags : Prop :=
  (∀ e : Event, recordLength e.tag = some (serialize e).length ∧ (serialize e).head? = some (BitVec.ofNat 8 e.tag)) ∧
  (∀ (tag : Byte) (rest : List Byte), 5 ≤ tag.toNat → recordLength tag.toNat = none ∧ parseRecord (tag :: rest) = none) ∧
  (∀ b : List Byte, (serializeTrace ((List.range (runLength b)).map (messageEvent b))).length =
    123 + 6466 * chunkCountOf b.length)

/-- R66 to R71: the layouts of the writer and of the reader agree on every field, for records whose numbers fit their fields. -/
def Obligations.RecordRoundTrip : Prop :=
  ∀ e : Event, e.fits = true → parseRecord (serialize e) = some e

/-! ## The front end (40_input_frontend.md) -/

/-- R91: text mode never fails; the bytes of a text are those of its characters in order; each range of scalar values has the bytes
of the table, by bit fields. -/
def Obligations.TextModeIsUtf8 : Prop :=
  (∀ p text, normalizeText p text .text = .ok (text.flatMap utf8Char)) ∧
  (∀ u : Nat, isScalar u = true ↔ (u ≤ 0xD7FF ∨ (0xE000 ≤ u ∧ u ≤ 0x10FFFF))) ∧
  (∀ u : BitVec 21,
    (u.toNat ≤ 0x7F → utf8Char u.toNat = [0#1 ++ u.extractLsb' 0 7]) ∧
    (0x80 ≤ u.toNat → u.toNat ≤ 0x7FF →
      utf8Char u.toNat = [0b110#3 ++ u.extractLsb' 6 5, 0b10#2 ++ u.extractLsb' 0 6]) ∧
    (0x800 ≤ u.toNat → u.toNat ≤ 0xFFFF →
      utf8Char u.toNat = [0b1110#4 ++ u.extractLsb' 12 4, 0b10#2 ++ u.extractLsb' 6 6, 0b10#2 ++ u.extractLsb' 0 6]) ∧
    (0x10000 ≤ u.toNat → u.toNat ≤ 0x10FFFF →
      utf8Char u.toNat = [0b11110#5 ++ u.extractLsb' 18 3, 0b10#2 ++ u.extractLsb' 12 6, 0b10#2 ++ u.extractLsb' 6 6,
        0b10#2 ++ u.extractLsb' 0 6]))

/-- R92: hex mode fails exactly on an odd count of characters or on a character outside `[0-9a-fA-F]`, after every whitespace
character is removed; the default whitespace set; a text of whitespace alone succeeds. -/
def Obligations.HexModeAcceptance : Prop :=
  (∀ (p : Params) (text : List Nat),
    let t := text.filter fun u => !(u == 0x20 || p.wsExtra.contains u)
    normalizeText p text .hex = .error .invalidHexInput ↔
      t.length % 2 = 1 ∨
      ∃ u ∈ t, ¬ ((0x30 ≤ u ∧ u ≤ 0x39) ∨ (0x61 ≤ u ∧ u ≤ 0x66) ∨ (0x41 ≤ u ∧ u ≤ 0x46))) ∧
  (∀ u, isWhitespace Params.default u = true ↔
    u = 0x09 ∨ u = 0x0A ∨ u = 0x0B ∨ u = 0x0C ∨ u = 0x0D ∨ u = 0x20) ∧
  (∀ (p : Params) (text : List Nat), (∀ u ∈ text, isWhitespace p u = true) → normalizeText p text .hex = .ok [])

/-- R93: the bytes of an accepted text, pair by pair, the first digit the high nibble, upper and lower case alike. -/
def Obligations.HexModeDecoding : Prop :=
  ∀ (p : Params) (text : List Nat) (bs : List Byte), normalizeText p text .hex = .ok bs →
    let t := text.filter fun u => !(u == 0x20 || p.wsExtra.contains u)
    let hv := fun u : Nat => if u ≤ 0x39 then u - 0x30 else if u ≤ 0x46 then u - 0x41 + 10 else u - 0x61 + 10
    t.length = 2 * bs.length ∧
    ∀ k, k < bs.length → (bs.getD k 0).toNat = 16 * hv (t.getD (2 * k) 0) + hv (t.getD (2 * k + 1) 0)

/-! ## The host (60_exceptions.md, 70_reset_and_hazards.md) -/

/-- R200, R213: when the preconditions hold, a launch starts a run on the message from the launch premises; when one fails the launch
is refused, and no precondition is checked but these. -/
def Obligations.LaunchStartsOrIsRefused : Prop :=
  ∀ (p : Params) (b : List Byte) (s : State),
    let ok := (s.ph = .idle ∨ s.ph = .halt) ∧ (∀ c, p.maxLen = some c → b.length ≤ c) ∧
      (∀ c, p.traceCap = some c → 2 + 66 * ((b.length + 8) / 64 + 1) ≤ c)
    (ok → ∃ t, hostExec p (.launch b) s = .next t ∧ LaunchPremises b t ∧ Inv t ∧ t.moves = s.moves) ∧
    (¬ ok → ∃ r, hostExec p (.launch b) s = .refused r)

/-- R191: taking `InvalidHexInput`. `W`, `M` and `DIGEST` hold no value after it: nothing is said of them. That the
refused read of a slot names `readOutOfRange`, where R204 says only "refused", is the model's choice (log entry 22). -/
def Obligations.InvalidHexInputEntry : Prop :=
  ∀ (p : Params) (text : List Nat) (s : State), (s.ph = .idle ∨ s.ph = .halt) →
    normalizeText p text .hex = .error .invalidHexInput →
    ∃ t, hostExec p (.launchText text 1) s = .next t ∧
      t.err = true ∧ t.ph = .idle ∧ t.cidx = 0 ∧ t.ridx = 0 ∧ t.evn = 0 ∧ t.mlen = 0 ∧ t.plen = 0 ∧ t.nchunk = 0 ∧
      t.h = ivrom ∧ t.msg = [] ∧ t.pmsg = [] ∧ t.trace = [] ∧ status t = 0x4 ∧ t.moves = s.moves ∧ Inv t ∧
      (∀ n, hostRead (.trace n) t = .error .readOutOfRange)

/-- R201, R95: `LaunchText` is `Normalize` and then `Launch`; a mode that is neither text nor hex, and a text that is no sequence of
scalar values, are refused (R72, V13). That a
`LaunchText` while BUSY is refused as `launchWhileBusy`, whatever else fails, is the model's order of checks (log entry 12). -/
def Obligations.LaunchTextNormalizesThenLaunches : Prop :=
  ∀ (p : Params) (text : List Nat) (s : State),
    ((∀ u ∈ text, isScalar u = true) →
      hostExec p (.launchText text 0) s = hostExec p (.launch (text.flatMap utf8Char)) s) ∧
    (∀ b, normalizeText p text .hex = .ok b → hostExec p (.launchText text 1) s = hostExec p (.launch b) s) ∧
    ((∃ u ∈ text, isScalar u = false) → ∃ r, hostExec p (.launchText text 0) s = .refused r) ∧
    (∀ mode, 2 ≤ mode → ∃ r, hostExec p (.launchText text mode) s = .refused r) ∧
    (busy s = true → ∀ mode, hostExec p (.launchText text mode) s = .refused .launchWhileBusy)

/-- R202, R26: `Reset` gives the state of R26 in every field that R26 gives a value. That it does so while BUSY too is the model's
choice (V11, log entry 11). -/
def Obligations.ResetCommandGivesTheResetState : Prop :=
  ∀ (p : Params) (s : State), ∃ t, hostExec p .reset s = .next t ∧
    t.ph = .idle ∧ t.cidx = 0 ∧ t.ridx = 0 ∧ t.evn = 0 ∧ t.mlen = 0 ∧ t.plen = 0 ∧ t.nchunk = 0 ∧ t.err = false ∧
    t.h = ivrom ∧ t.msg = [] ∧ t.pmsg = [] ∧ t.trace = [] ∧ t.moves = s.moves ∧ Inv t

/-- R26, R210: the state after reset, in the fields that R26 gives a value. -/
def Obligations.StateAfterReset : Prop :=
  let s := State.reset
  s.ph = .idle ∧ s.cidx = 0 ∧ s.ridx = 0 ∧ s.evn = 0 ∧ s.mlen = 0 ∧ s.plen = 0 ∧ s.nchunk = 0 ∧ s.err = false ∧
  s.h = ⟨0x67452301, 0xefcdab89, 0x98badcfe, 0x10325476⟩ ∧ s.msg = [] ∧ s.pmsg = [] ∧ s.trace = [] ∧
  status s = 0 ∧ decode (fetchCode s) = .ok .hlt

/-- R17: the status word, what `ERR` implies, and that no operation sets or clears it. -/
def Obligations.StatusBits : Prop :=
  ∀ s : State,
    ((status s).getLsbD 0 = true ↔ s.ph = .pre ∨ s.ph = .cst ∨ s.ph = .rnd ∨ s.ph = .cen ∨ s.ph = .don) ∧
    ((status s).getLsbD 1 = true ↔ s.ph = .halt) ∧ ((status s).getLsbD 2 = s.err) ∧
    (∀ k, 3 ≤ k → (status s).getLsbD k = false) ∧
    ¬ ((status s).getLsbD 0 = true ∧ (status s).getLsbD 1 = true) ∧
    ((status s).getLsbD 0 = false ∧ (status s).getLsbD 1 = false ↔ s.ph = .idle) ∧
    (Inv s → s.err = true → s.ph = .idle ∧ s.evn = 0) ∧
    (∀ i t, exec i s = .next t → t.err = s.err)

/-- R203, R204, V8: while BUSY the host reads registers 0 to 6 and nothing else; in `IDLE` it reads also `H` and every entry of the
ROM spaces, and nothing that holds no value. -/
def Obligations.ReadsBeforeDoneAreLimited : Prop :=
  ∀ s : State,
    (∀ n, n ≤ 6 → ∃ v, hostRead (.register n) s = .ok v) ∧
    (busy s = true → ∀ r v, hostRead r s = .ok v → ∃ n, n ≤ 6 ∧ r = .register n) ∧
    (s.ph = .idle → ∀ r v, hostRead r s = .ok v →
      (∃ n, (n ≤ 6 ∨ (9 ≤ n ∧ n ≤ 12)) ∧ r = .register n) ∨ (∃ k, r = .krom k ∨ r = .srom k ∨ r = .ivrom k ∨ r = .fdesc k)) ∧
    (s.ph = .idle → hostRead (.register 9) s = .ok (.word s.h.a) ∧ hostRead (.register 10) s = .ok (.word s.h.b) ∧
      hostRead (.register 11) s = .ok (.word s.h.c) ∧ hostRead (.register 12) s = .ok (.word s.h.d) ∧ RomsReadable s)

/-- R204, R24 when `PH = HALT`: the value of every register by its number, of `MSG` below `MLEN`, `PMSG` below `PLEN`, `TRACE` below
`EVN`, the bytes and words of the chunks below `NCHUNK` (42_chunk_splitter.md R112) and every ROM entry; and a read outside these
bounds is refused. -/
def Obligations.ReadsAfterDone : Prop :=
  ∀ s : State, Inv s → s.ph = .halt →
    (hostRead (.register 0) s = .ok (.word 0x2) ∧ hostRead (.register 1) s = .ok (.phase 6) ∧
      hostRead (.register 2) s = .ok (.count 0) ∧ hostRead (.register 3) s = .ok (.index 0) ∧
      hostRead (.register 4) s = .ok (.code 0x04) ∧ hostRead (.register 5) s = .ok (.count s.evn) ∧
      hostRead (.register 6) s = .ok (.count s.mlen) ∧ hostRead (.register 7) s = .ok (.count s.plen) ∧
      hostRead (.register 8) s = .ok (.count s.nchunk)) ∧
    (hostRead (.register 9) s = .ok (.word s.h.a) ∧ hostRead (.register 10) s = .ok (.word s.h.b) ∧
      hostRead (.register 11) s = .ok (.word s.h.c) ∧ hostRead (.register 12) s = .ok (.word s.h.d)) ∧
    (hostRead (.register 13) s = .ok (.word s.w.a) ∧ hostRead (.register 14) s = .ok (.word s.w.b) ∧
      hostRead (.register 15) s = .ok (.word s.w.c) ∧ hostRead (.register 16) s = .ok (.word s.w.d)) ∧
    (∀ j (hj : j < 16), hostRead (.register (17 + j)) s = .ok (.word s.m[j])) ∧
    hostRead (.register 33) s = .ok (.text s.digest) ∧
    (∀ n, 34 ≤ n → ∃ r, hostRead (.register n) s = .error r) ∧
    (∀ k, (k < s.mlen → ∃ v, Cells.read s.msg k = some v ∧ hostRead (.msg k) s = .ok (.byte v)) ∧
      (s.mlen ≤ k → ∃ r, hostRead (.msg k) s = .error r)) ∧
    (∀ k, (k < s.plen → ∃ v, Cells.read s.pmsg k = some v ∧ hostRead (.pmsg k) s = .ok (.byte v)) ∧
      (s.plen ≤ k → ∃ r, hostRead (.pmsg k) s = .error r)) ∧
    (∀ n, (n < s.evn → ∃ e, Cells.read s.trace n = some e ∧ hostRead (.trace n) s = .ok (.event e)) ∧
      (s.evn ≤ n → ∃ r, hostRead (.trace n) s = .error r)) ∧
    (∀ c k, (c < s.nchunk → k < 64 →
        ∃ v, Cells.read s.pmsg (64 * c + k) = some v ∧ hostRead (.chunkByte c k) s = .ok (.byte v)) ∧
      (¬ (c < s.nchunk ∧ k < 64) → ∃ r, hostRead (.chunkByte c k) s = .error r)) ∧
    (∀ c j, (c < s.nchunk → ∀ hj : j < 16,
        ∃ m, chunkBlock s.pmsg c = some m ∧ hostRead (.chunkWord c j) s = .ok (.word m[j])) ∧
      (¬ (c < s.nchunk ∧ j < 16) → ∃ r, hostRead (.chunkWord c j) s = .error r)) ∧
    RomsReadable s

/-! ## Invariants -/

/-- The invariant holds after reset. -/
def Obligations.InvariantHoldsAfterReset : Prop := Inv State.reset

/-- Every step of either agent keeps the invariant: canonical memories, index ranges, geometry, legal position, the event count of
R15, the message buffer of R13, the status rule of R17, the end state of R214. -/
def Obligations.EveryStepKeepsTheInvariant : Prop :=
  ∀ s t : State, Inv s → step s = .next t → Inv t

/-- R43: a move of the sequencer never modifies a slot that holds an event. -/
def Obligations.WrittenEventsNeverChange : Prop :=
  ∀ s t : State, Inv s → (∀ c rest, s.moves ≠ .host c :: rest) → step s = .next t →
    ∀ n, n < s.evn → ∃ e, Cells.read s.trace n = some e ∧ Cells.read t.trace n = some e

/-- R203, R151: a busy engine left to itself reaches `HALT`, within the number of steps of a whole run. -/
def Obligations.EveryRunReachesHalt : Prop :=
  ∀ s : State, Inv s → s.moves = [] → busy s = true →
    ∃ k t, 1 ≤ k ∧ k ≤ 2 + 66 * chunkCountOf s.mlen ∧ runs k s t ∧ t.ph = .halt

/-! ## Whole runs -/

/-- The engine computes the digest: a run on a message of any length ends, after `2 + 66·NCHUNK` steps, in the state of R214 with the
hash that `Compress` gives chunk by chunk (R120, R150), `DIGEST` formatting it (R158). -/
def Obligations.RunComputesTheDigest : Prop :=
  ∀ (b : List Byte) (s : State), LaunchPremises b s → s.moves = [] →
    ∃ t, runs (runLength b) s t ∧ t.ph = .halt ∧ t.cidx = 0 ∧ t.ridx = 0 ∧ t.evn = 2 + 66 * t.nchunk ∧
      t.nchunk = chunkCountOf b.length ∧ t.plen = 64 * t.nchunk ∧ t.mlen = b.length ∧
      t.h = hashAfter b t.nchunk ∧ t.digest = md5 b ∧ status t = 0x2 ∧
      t.w = regsBefore b (t.nchunk - 1) 64 ∧ t.m = messageBlock b (t.nchunk - 1) ∧
      Cells.readSeq t.pmsg 0 t.plen = some (pad b) ∧ t.msg = s.msg

/-- R160, R162: the trace a run leaves, event by event, and no other slot. -/
def Obligations.RunLeavesTheMessagesTrace : Prop :=
  ∀ (b : List Byte) (s : State), LaunchPremises b s → s.moves = [] →
    ∃ t, runs (runLength b) s t ∧
      ∀ p, Cells.read t.trace p = if p < runLength b then some (messageEvent b p) else none

/-- R64: the step code a run executes at each trace index, the chunk it is on, and `HLT` for ever after. That the
steps past `HALT` are counted, as HLT steps that leave the state as it is, is the model's choice (log entry 8): R159 says there is
no step. -/
def Obligations.RunExecutesTheProgram : Prop :=
  ∀ (b : List Byte) (s : State), LaunchPremises b s → s.moves = [] →
    (∀ k, k < runLength b → ∃ t, runs k s t ∧ t.evn = k ∧
      (k = 0 → (fetchCode t).toNat = 0x00) ∧ (k = 1 + 66 * chunkCountOf b.length → (fetchCode t).toNat = 0x03) ∧
      (k ≠ 0 → k ≠ 1 + 66 * chunkCountOf b.length → t.cidx = (k - 1) / 66 ∧
        ((k - 1) % 66 = 0 → (fetchCode t).toNat = 0x01) ∧ ((k - 1) % 66 = 65 → (fetchCode t).toNat = 0x02) ∧
        (1 ≤ (k - 1) % 66 → (k - 1) % 66 ≤ 64 → (fetchCode t).toNat = 0x40 + ((k - 1) % 66 - 1)))) ∧
    (∀ k, runLength b ≤ k → ∃ t, runs k s t ∧ (fetchCode t).toNat = 0x04 ∧ runs (runLength b) s t) ∧
    runLength b = 2 + 66 * chunkCountOf b.length ∧ 1 ≤ chunkCountOf b.length

/-- R164: the trace, the hash and the digest are a function of the ByteSequence alone, whatever else the two engines held. -/
def Obligations.RunsAreIndependentOfThePast : Prop :=
  ∀ (p p' : Params) (b : List Byte) (s s' t t' : State), s.moves = [] → s'.moves = [] →
    hostExec p (.launch b) s = .next t → hostExec p' (.launch b) s' = .next t' →
    ∃ u u', runs (runLength b) t u ∧ runs (runLength b) t' u' ∧ u.ph = .halt ∧ u'.ph = .halt ∧
      u.trace = u'.trace ∧ u.h = u'.h ∧ u.digest = u'.digest ∧ u.msg = u'.msg ∧ u.pmsg = u'.pmsg

/-- R165, R204: what the host reads back after a run on message `b`. -/
def Obligations.TraceValueOfARun : Prop :=
  ∀ (b : List Byte) (s : State), LaunchPremises b s → s.moves = [] →
    ∃ t, runs (runLength b) s t ∧ traceValue t = .ok
      { events := (List.range (runLength b)).map (messageEvent b), message := b, padded := pad b, chunks := split (pad b),
        digest := md5 b, roundConstants := kromTable.toList, shiftAmounts := sromTable.toList, initialHash := ivrom }

/-- R75 and R64: the macro `MD5 n` expands to well-formed operations whose codes are the program. -/
def Obligations.MacroIsTheProgram : Prop :=
  ∀ n : Nat, 1 ≤ n →
    (md5Macro n).length = 2 + 66 * n ∧ (∀ l ∈ md5Macro n, l.wellFormed = true) ∧
    (md5Macro n).map (fun l => encode l.instr) = (List.range (2 + 66 * n)).map (programCode n)
end

