-- ==== Sys2Proof/Laws/Memory.lean ====
section
/-! SUPPORT. The basic laws of the index spaces: read after write, the canonical form is kept, and what runs of reads and writes
see. -/

namespace Sys2Proof.Machine

variable {α : Type}

@[simp] theorem Cells.read_nil (k : Nat) : Cells.read ([] : Cells α) k = none := rfl

theorem Cells.wf_nil : Cells.wf ([] : Cells α) := List.Pairwise.nil

theorem Cells.read_write_self (m : Cells α) (k : Nat) (v : α) : Cells.read (Cells.write m k v) k = some v := by
  induction m with
  | nil => simp [Cells.write, Cells.read]
  | cons c rest ih =>
    obtain ⟨j, u⟩ := c
    unfold Cells.write
    split
    · simp [Cells.read]
    · split
      · simp [Cells.read]
      · simp [Cells.read, *]

theorem Cells.read_write_other (m : Cells α) {k a : Nat} (v : α) (h : a ≠ k) :
    Cells.read (Cells.write m k v) a = Cells.read m a := by
  induction m with
  | nil => simp [Cells.write, Cells.read, h]
  | cons c rest ih =>
    obtain ⟨j, u⟩ := c
    unfold Cells.write
    split
    · simp [Cells.read, h]
    · split
      · subst_vars
        simp [Cells.read, h]
      · simp only [Cells.read]
        split
        · rfl
        · exact ih

/-- A write is seen at its own index and nowhere else. -/
theorem Cells.read_write (m : Cells α) (k a : Nat) (v : α) :
    Cells.read (Cells.write m k v) a = if a = k then some v else Cells.read m a := by
  split
  · subst_vars; exact Cells.read_write_self m _ v
  · exact Cells.read_write_other m v ‹_›

/-- The indices of a written memory are the old ones and the written one. -/
theorem Cells.mem_write_index (m : Cells α) (k : Nat) (v : α) {a : Nat}
    (h : a ∈ (Cells.write m k v).map Prod.fst) : a = k ∨ a ∈ m.map Prod.fst := by
  induction m with
  | nil => simpa [Cells.write] using h
  | cons c rest ih =>
    obtain ⟨j, u⟩ := c
    unfold Cells.write at h
    split at h
    · simpa using h
    · split at h
      · simp only [List.map_cons, List.mem_cons] at h ⊢
        tauto
      · simp only [List.map_cons, List.mem_cons] at h ⊢
        rcases h with h | h
        · exact .inr (.inl h)
        · rcases ih h with h | h
          · exact .inl h
          · exact .inr (.inr h)

/-- A write keeps the canonical form. -/
theorem Cells.wf_write (m : Cells α) (k : Nat) (v : α) (h : Cells.wf m) : Cells.wf (Cells.write m k v) := by
  induction m with
  | nil => simp [Cells.wf, Cells.write]
  | cons c rest ih =>
    obtain ⟨j, u⟩ := c
    simp only [Cells.wf, List.map_cons, List.pairwise_cons] at h
    unfold Cells.write
    split
    · rename_i hk
      simp only [Cells.wf, List.map_cons, List.pairwise_cons, List.mem_cons]
      refine ⟨?_, h.1, h.2⟩
      rintro a (rfl | ha)
      · exact hk
      · exact lt_trans hk (h.1 a ha)
    · split
      · subst_vars
        simpa [Cells.wf] using h
      · simp only [Cells.wf, List.map_cons, List.pairwise_cons]
        refine ⟨fun a ha => ?_, ih h.2⟩
        rcases Cells.mem_write_index rest k v ha with rfl | ha
        · omega
        · exact h.1 a ha

/-- A run of writes keeps the canonical form. -/
theorem Cells.wf_writeSeq (m : Cells α) (k : Nat) (vs : List α) (h : Cells.wf m) : Cells.wf (Cells.writeSeq m k vs) := by
  induction vs generalizing m k with
  | nil => exact h
  | cons v vs ih => exact ih _ _ (Cells.wf_write m k v h)

/-- A run of writes is seen at its own indices and nowhere else. -/
theorem Cells.read_writeSeq (m : Cells α) (k : Nat) (vs : List α) (a : Nat) :
    Cells.read (Cells.writeSeq m k vs) a = if k ≤ a ∧ a < k + vs.length then vs[a - k]? else Cells.read m a := by
  induction vs generalizing m k with
  | nil =>
    simp only [Cells.writeSeq, List.length_nil]
    rw [if_neg (by omega)]
  | cons v vs ih =>
    rw [Cells.writeSeq, ih, Cells.read_write]
    simp only [List.length_cons]
    by_cases hak : a = k
    · subst hak
      rw [if_neg (by omega), if_pos rfl, if_pos (by omega)]
      simp
    · rw [if_neg hak]
      by_cases h : k + 1 ≤ a ∧ a < k + 1 + vs.length
      · rw [if_pos h, if_pos (by omega)]
        obtain ⟨d, rfl⟩ : ∃ d, a = k + 1 + d := ⟨a - (k + 1), by omega⟩
        rw [show k + 1 + d - (k + 1) = d by omega, show k + 1 + d - k = d + 1 by omega, List.getElem?_cons_succ]
      · rw [if_neg h, if_neg (by omega)]

/-- A run of reads gives `vs` exactly when `vs` has the run's length and every element is read at its index. -/
theorem Cells.readSeq_eq_some (m : Cells α) (k n : Nat) (vs : List α) :
    Cells.readSeq m k n = some vs ↔ vs.length = n ∧ ∀ j, j < n → Cells.read m (k + j) = vs[j]? := by
  induction n generalizing k vs with
  | zero =>
    simp only [Cells.readSeq, Option.some.injEq]
    constructor
    · rintro rfl; simp
    · rintro ⟨h, -⟩; exact (List.length_eq_zero_iff.mp h).symm
  | succ n ih =>
    unfold Cells.readSeq
    constructor
    · intro h
      split at h
      · rename_i v vs' hv hs
        obtain rfl := Option.some.inj h
        obtain ⟨hl, hr⟩ := (ih (k + 1) vs').mp hs
        refine ⟨by simp [hl], fun j hj => ?_⟩
        cases j with
        | zero => simpa using hv
        | succ j =>
          rw [show k + (j + 1) = k + 1 + j by omega, hr j (by omega), List.getElem?_cons_succ]
      · exact absurd h (by simp)
    · rintro ⟨hl, hr⟩
      cases vs with
      | nil => simp at hl
      | cons v vs' =>
        have h0 : Cells.read m k = some v := by simpa using hr 0 (by omega)
        have hs : Cells.readSeq m (k + 1) n = some vs' := by
          refine (ih (k + 1) vs').mpr ⟨by simpa using hl, fun j hj => ?_⟩
          have := hr (j + 1) (by omega)
          rwa [show k + (j + 1) = k + 1 + j by omega, List.getElem?_cons_succ] at this
        rw [h0, hs]

/-- A run of reads fails exactly when some element of the run does not exist. -/
theorem Cells.readSeq_eq_none (m : Cells α) (k n : Nat) :
    Cells.readSeq m k n = none ↔ ∃ j, j < n ∧ Cells.read m (k + j) = none := by
  induction n generalizing k with
  | zero => simp [Cells.readSeq]
  | succ n ih =>
    unfold Cells.readSeq
    constructor
    · intro h
      split at h
      · exact absurd h (by simp)
      · rename_i hn
        cases hv : Cells.read m k with
        | none => exact ⟨0, by omega, by simpa using hv⟩
        | some v =>
          cases hs : Cells.readSeq m (k + 1) n with
          | none =>
            obtain ⟨j, hj, hr⟩ := (ih (k + 1)).mp hs
            exact ⟨j + 1, by omega, by rwa [show k + (j + 1) = k + 1 + j by omega]⟩
          | some vs => exact absurd hs (hn v vs hv)
    · rintro ⟨j, hj, hr⟩
      cases j with
      | zero =>
        rw [Nat.add_zero] at hr
        rw [hr]
      | succ j =>
        have hs : Cells.readSeq m (k + 1) n = none :=
          (ih (k + 1)).mpr ⟨j, by omega, by rwa [show k + 1 + j = k + (j + 1) by omega]⟩
        rw [hs]
        cases Cells.read m k <;> rfl

/-- Reading back a run of writes. -/
theorem Cells.readSeq_writeSeq (m : Cells α) (k : Nat) (vs : List α) :
    Cells.readSeq (Cells.writeSeq m k vs) k vs.length = some vs := by
  refine (Cells.readSeq_eq_some _ _ _ _).mpr ⟨rfl, fun j hj => ?_⟩
  rw [Cells.read_writeSeq, if_pos (by omega), Nat.add_sub_cancel_left]

/-- The empty space covers nothing. -/
theorem Cells.covers_nil : Cells.Covers ([] : Cells α) 0 := by intro k; simp

/-- Writing the next free slot extends the covered range by one. -/
theorem Cells.Covers.write_next {m : Cells α} {n : Nat} (h : Cells.Covers m n) (v : α) :
    Cells.Covers (Cells.write m n v) (n + 1) := by
  intro k
  rw [Cells.read_write]
  split
  · simp; omega
  · rw [h k]; omega

/-- Writing a whole sequence into an empty space covers its length. -/
theorem Cells.covers_writeSeq_nil (vs : List α) : Cells.Covers (Cells.writeSeq [] 0 vs) vs.length := by
  intro k
  rw [Cells.read_writeSeq]
  split
  · simp
  · simp; omega

/-- A covered space can be read whole. -/
theorem Cells.Covers.readSeq_isSome {m : Cells α} {n : Nat} (h : Cells.Covers m n) {k len : Nat} (hk : k + len ≤ n) :
    (Cells.readSeq m k len).isSome = true := by
  cases hs : Cells.readSeq m k len with
  | some _ => rfl
  | none =>
    obtain ⟨j, hj, hr⟩ := (Cells.readSeq_eq_none m k len).mp hs
    have := (h (k + j)).mpr (by omega)
    rw [hr] at this
    simp at this

end Sys2Proof.Machine
end

