-- ==== Sys2Proof/Laws/Padding.lean ====
section
/-! SUPPORT. Lengths of byte packings and of the padded message. -/

namespace Sys2Proof.Machine

@[simp] theorem leBytes_length (n v : Nat) : (leBytes n v).length = n := by
  induction n generalizing v with
  | zero => rfl
  | succ n ih => simp [leBytes, ih]

/-- `leValue` inverts `leBytes` up to reduction modulo 2^(8n). -/
theorem leValue_leBytes (n v : Nat) : leValue (leBytes n v) = v % 256 ^ n := by
  induction n generalizing v with
  | zero => simp [leBytes, leValue, Nat.mod_one]
  | succ n ih =>
    simp only [leBytes, leValue, ih, BitVec.toNat_ofNat]
    rw [Nat.mod_eq_of_lt (by omega : v % 256 < 2 ^ 8), pow_succ', Nat.mod_mul]

@[simp] theorem wordBytes_length (w : Word) : (wordBytes w).length = 4 := leBytes_length 4 _

@[simp] theorem quadBytes_length (q : Quad) : (quadBytes q).length = 16 := by simp [quadBytes]

@[simp] theorem lengthSuffix_length (len : Nat) : (lengthSuffix len).length = 8 := leBytes_length 8 _

/-- The number of zero bytes is the least that brings the length to 56 modulo 64 (41_padding_framer.md R102). -/
theorem zeroFill_spec (len : Nat) : zeroFill len < 64 ∧ (len + 1 + zeroFill len) % 64 = 56 := by
  unfold zeroFill
  omega

/-- The padded length in closed form (R104). -/
theorem pad_length (b : List Byte) : (pad b).length = 64 * chunkCountOf b.length := by
  have := zeroFill_spec b.length
  simp only [pad, chunkCountOf, List.length_append, List.length_replicate, lengthSuffix_length, List.length_cons,
    List.length_nil]
  omega

/-- The chunk count in closed form (R104). -/
theorem pad_length_div (b : List Byte) : (pad b).length / 64 = chunkCountOf b.length := by
  rw [pad_length]; omega

end Sys2Proof.Machine
end

