-- ==== Sys2Proof/Laws/State.lean ====
section
/-! SUPPORT. One lemma per field of `State` and per update of it by a named operation, so that no later proof unfolds a record
update. -/

namespace Sys2Proof.Machine

@[simp] theorem setPc_h (p : Phase) (c : Nat) (i : BitVec 6) (s : State) : (setPc p c i s).h = s.h := rfl
@[simp] theorem setPc_w (p : Phase) (c : Nat) (i : BitVec 6) (s : State) : (setPc p c i s).w = s.w := rfl
@[simp] theorem setPc_m (p : Phase) (c : Nat) (i : BitVec 6) (s : State) : (setPc p c i s).m = s.m := rfl
@[simp] theorem setPc_ph (p : Phase) (c : Nat) (i : BitVec 6) (s : State) : (setPc p c i s).ph = p := rfl
@[simp] theorem setPc_cidx (p : Phase) (c : Nat) (i : BitVec 6) (s : State) : (setPc p c i s).cidx = c := rfl
@[simp] theorem setPc_ridx (p : Phase) (c : Nat) (i : BitVec 6) (s : State) : (setPc p c i s).ridx = i := rfl
@[simp] theorem setPc_evn (p : Phase) (c : Nat) (i : BitVec 6) (s : State) : (setPc p c i s).evn = s.evn := rfl
@[simp] theorem setPc_mlen (p : Phase) (c : Nat) (i : BitVec 6) (s : State) : (setPc p c i s).mlen = s.mlen := rfl
@[simp] theorem setPc_plen (p : Phase) (c : Nat) (i : BitVec 6) (s : State) : (setPc p c i s).plen = s.plen := rfl
@[simp] theorem setPc_nchunk (p : Phase) (c : Nat) (i : BitVec 6) (s : State) : (setPc p c i s).nchunk = s.nchunk := rfl
@[simp] theorem setPc_err (p : Phase) (c : Nat) (i : BitVec 6) (s : State) : (setPc p c i s).err = s.err := rfl
@[simp] theorem setPc_digest (p : Phase) (c : Nat) (i : BitVec 6) (s : State) : (setPc p c i s).digest = s.digest := rfl
@[simp] theorem setPc_msg (p : Phase) (c : Nat) (i : BitVec 6) (s : State) : (setPc p c i s).msg = s.msg := rfl
@[simp] theorem setPc_pmsg (p : Phase) (c : Nat) (i : BitVec 6) (s : State) : (setPc p c i s).pmsg = s.pmsg := rfl
@[simp] theorem setPc_trace (p : Phase) (c : Nat) (i : BitVec 6) (s : State) : (setPc p c i s).trace = s.trace := rfl
@[simp] theorem setPc_moves (p : Phase) (c : Nat) (i : BitVec 6) (s : State) : (setPc p c i s).moves = s.moves := rfl
@[simp] theorem setPc_freeEpoch (p : Phase) (c : Nat) (i : BitVec 6) (s : State) : (setPc p c i s).freeEpoch = s.freeEpoch := rfl

@[simp] theorem emit_h (e : Event) (s : State) : (emit e s).h = s.h := rfl
@[simp] theorem emit_w (e : Event) (s : State) : (emit e s).w = s.w := rfl
@[simp] theorem emit_m (e : Event) (s : State) : (emit e s).m = s.m := rfl
@[simp] theorem emit_ph (e : Event) (s : State) : (emit e s).ph = s.ph := rfl
@[simp] theorem emit_cidx (e : Event) (s : State) : (emit e s).cidx = s.cidx := rfl
@[simp] theorem emit_ridx (e : Event) (s : State) : (emit e s).ridx = s.ridx := rfl
@[simp] theorem emit_evn (e : Event) (s : State) : (emit e s).evn = s.evn + 1 := rfl
@[simp] theorem emit_mlen (e : Event) (s : State) : (emit e s).mlen = s.mlen := rfl
@[simp] theorem emit_plen (e : Event) (s : State) : (emit e s).plen = s.plen := rfl
@[simp] theorem emit_nchunk (e : Event) (s : State) : (emit e s).nchunk = s.nchunk := rfl
@[simp] theorem emit_err (e : Event) (s : State) : (emit e s).err = s.err := rfl
@[simp] theorem emit_digest (e : Event) (s : State) : (emit e s).digest = s.digest := rfl
@[simp] theorem emit_msg (e : Event) (s : State) : (emit e s).msg = s.msg := rfl
@[simp] theorem emit_pmsg (e : Event) (s : State) : (emit e s).pmsg = s.pmsg := rfl
@[simp] theorem emit_trace (e : Event) (s : State) : (emit e s).trace = Cells.write s.trace s.evn e := rfl
@[simp] theorem emit_moves (e : Event) (s : State) : (emit e s).moves = s.moves := rfl
@[simp] theorem emit_freeEpoch (e : Event) (s : State) : (emit e s).freeEpoch = s.freeEpoch := rfl

@[simp] theorem writePadded_h (pm : List Byte) (s : State) : (writePadded pm s).h = s.h := rfl
@[simp] theorem writePadded_w (pm : List Byte) (s : State) : (writePadded pm s).w = s.w := rfl
@[simp] theorem writePadded_m (pm : List Byte) (s : State) : (writePadded pm s).m = s.m := rfl
@[simp] theorem writePadded_ph (pm : List Byte) (s : State) : (writePadded pm s).ph = s.ph := rfl
@[simp] theorem writePadded_cidx (pm : List Byte) (s : State) : (writePadded pm s).cidx = s.cidx := rfl
@[simp] theorem writePadded_ridx (pm : List Byte) (s : State) : (writePadded pm s).ridx = s.ridx := rfl
@[simp] theorem writePadded_evn (pm : List Byte) (s : State) : (writePadded pm s).evn = s.evn := rfl
@[simp] theorem writePadded_mlen (pm : List Byte) (s : State) : (writePadded pm s).mlen = s.mlen := rfl
@[simp] theorem writePadded_plen (pm : List Byte) (s : State) : (writePadded pm s).plen = s.plen := rfl
@[simp] theorem writePadded_nchunk (pm : List Byte) (s : State) : (writePadded pm s).nchunk = s.nchunk := rfl
@[simp] theorem writePadded_err (pm : List Byte) (s : State) : (writePadded pm s).err = s.err := rfl
@[simp] theorem writePadded_digest (pm : List Byte) (s : State) : (writePadded pm s).digest = s.digest := rfl
@[simp] theorem writePadded_msg (pm : List Byte) (s : State) : (writePadded pm s).msg = s.msg := rfl
@[simp] theorem writePadded_pmsg (pm : List Byte) (s : State) : (writePadded pm s).pmsg = Cells.writeSeq s.pmsg 0 pm := rfl
@[simp] theorem writePadded_trace (pm : List Byte) (s : State) : (writePadded pm s).trace = s.trace := rfl
@[simp] theorem writePadded_moves (pm : List Byte) (s : State) : (writePadded pm s).moves = s.moves := rfl
@[simp] theorem writePadded_freeEpoch (pm : List Byte) (s : State) : (writePadded pm s).freeEpoch = s.freeEpoch := rfl

@[simp] theorem padInto_h (b : List Byte) (s : State) : (padInto b s).h = s.h := rfl
@[simp] theorem padInto_w (b : List Byte) (s : State) : (padInto b s).w = s.w := rfl
@[simp] theorem padInto_m (b : List Byte) (s : State) : (padInto b s).m = s.m := rfl
@[simp] theorem padInto_ph (b : List Byte) (s : State) : (padInto b s).ph = s.ph := rfl
@[simp] theorem padInto_cidx (b : List Byte) (s : State) : (padInto b s).cidx = s.cidx := rfl
@[simp] theorem padInto_ridx (b : List Byte) (s : State) : (padInto b s).ridx = s.ridx := rfl
@[simp] theorem padInto_evn (b : List Byte) (s : State) : (padInto b s).evn = s.evn := rfl
@[simp] theorem padInto_mlen (b : List Byte) (s : State) : (padInto b s).mlen = s.mlen := rfl
@[simp] theorem padInto_plen (b : List Byte) (s : State) : (padInto b s).plen = (pad b).length := rfl
@[simp] theorem padInto_nchunk (b : List Byte) (s : State) : (padInto b s).nchunk = (pad b).length / 64 := rfl
@[simp] theorem padInto_err (b : List Byte) (s : State) : (padInto b s).err = s.err := rfl
@[simp] theorem padInto_digest (b : List Byte) (s : State) : (padInto b s).digest = s.digest := rfl
@[simp] theorem padInto_msg (b : List Byte) (s : State) : (padInto b s).msg = s.msg := rfl
@[simp] theorem padInto_pmsg (b : List Byte) (s : State) : (padInto b s).pmsg = Cells.writeSeq s.pmsg 0 (pad b) := rfl
@[simp] theorem padInto_trace (b : List Byte) (s : State) : (padInto b s).trace = s.trace := rfl
@[simp] theorem padInto_moves (b : List Byte) (s : State) : (padInto b s).moves = s.moves := rfl
@[simp] theorem padInto_freeEpoch (b : List Byte) (s : State) : (padInto b s).freeEpoch = s.freeEpoch := rfl

@[simp] theorem idleState_h (s : State) : (idleState s).h = ivrom := rfl
@[simp] theorem idleState_w (s : State) : (idleState s).w = freeRegs s.freeEpoch := rfl
@[simp] theorem idleState_m (s : State) : (idleState s).m = freeBlock s.freeEpoch := rfl
@[simp] theorem idleState_ph (s : State) : (idleState s).ph = .idle := rfl
@[simp] theorem idleState_cidx (s : State) : (idleState s).cidx = 0 := rfl
@[simp] theorem idleState_ridx (s : State) : (idleState s).ridx = 0 := rfl
@[simp] theorem idleState_evn (s : State) : (idleState s).evn = 0 := rfl
@[simp] theorem idleState_mlen (s : State) : (idleState s).mlen = 0 := rfl
@[simp] theorem idleState_plen (s : State) : (idleState s).plen = 0 := rfl
@[simp] theorem idleState_nchunk (s : State) : (idleState s).nchunk = 0 := rfl
@[simp] theorem idleState_err (s : State) : (idleState s).err = false := rfl
@[simp] theorem idleState_digest (s : State) : (idleState s).digest = freeDigest s.freeEpoch := rfl
@[simp] theorem idleState_msg (s : State) : (idleState s).msg = [] := rfl
@[simp] theorem idleState_pmsg (s : State) : (idleState s).pmsg = [] := rfl
@[simp] theorem idleState_trace (s : State) : (idleState s).trace = [] := rfl
@[simp] theorem idleState_moves (s : State) : (idleState s).moves = s.moves := rfl
@[simp] theorem idleState_freeEpoch (s : State) : (idleState s).freeEpoch = s.freeEpoch + 1 := rfl

@[simp] theorem launched_h (b : List Byte) (s : State) : (launched b s).h = ivrom := rfl
@[simp] theorem launched_w (b : List Byte) (s : State) : (launched b s).w = freeRegs s.freeEpoch := rfl
@[simp] theorem launched_m (b : List Byte) (s : State) : (launched b s).m = freeBlock s.freeEpoch := rfl
@[simp] theorem launched_ph (b : List Byte) (s : State) : (launched b s).ph = .pre := rfl
@[simp] theorem launched_cidx (b : List Byte) (s : State) : (launched b s).cidx = 0 := rfl
@[simp] theorem launched_ridx (b : List Byte) (s : State) : (launched b s).ridx = 0 := rfl
@[simp] theorem launched_evn (b : List Byte) (s : State) : (launched b s).evn = 0 := rfl
@[simp] theorem launched_mlen (b : List Byte) (s : State) : (launched b s).mlen = b.length := rfl
@[simp] theorem launched_plen (b : List Byte) (s : State) : (launched b s).plen = 0 := rfl
@[simp] theorem launched_nchunk (b : List Byte) (s : State) : (launched b s).nchunk = 0 := rfl
@[simp] theorem launched_err (b : List Byte) (s : State) : (launched b s).err = false := rfl
@[simp] theorem launched_digest (b : List Byte) (s : State) : (launched b s).digest = freeDigest s.freeEpoch := rfl
@[simp] theorem launched_msg (b : List Byte) (s : State) : (launched b s).msg = Cells.writeSeq [] 0 b := rfl
@[simp] theorem launched_pmsg (b : List Byte) (s : State) : (launched b s).pmsg = [] := rfl
@[simp] theorem launched_trace (b : List Byte) (s : State) : (launched b s).trace = [] := rfl
@[simp] theorem launched_moves (b : List Byte) (s : State) : (launched b s).moves = s.moves := rfl
@[simp] theorem launched_freeEpoch (b : List Byte) (s : State) : (launched b s).freeEpoch = s.freeEpoch + 1 := rfl

@[simp] theorem takeException_h (e : HwException) (s : State) : (takeException e s).h = ivrom := by cases e; rfl
@[simp] theorem takeException_w (e : HwException) (s : State) : (takeException e s).w = freeRegs s.freeEpoch := by cases e; rfl
@[simp] theorem takeException_m (e : HwException) (s : State) : (takeException e s).m = freeBlock s.freeEpoch := by cases e; rfl
@[simp] theorem takeException_ph (e : HwException) (s : State) : (takeException e s).ph = .idle := by cases e; rfl
@[simp] theorem takeException_cidx (e : HwException) (s : State) : (takeException e s).cidx = 0 := by cases e; rfl
@[simp] theorem takeException_ridx (e : HwException) (s : State) : (takeException e s).ridx = 0 := by cases e; rfl
@[simp] theorem takeException_evn (e : HwException) (s : State) : (takeException e s).evn = 0 := by cases e; rfl
@[simp] theorem takeException_mlen (e : HwException) (s : State) : (takeException e s).mlen = 0 := by cases e; rfl
@[simp] theorem takeException_plen (e : HwException) (s : State) : (takeException e s).plen = 0 := by cases e; rfl
@[simp] theorem takeException_nchunk (e : HwException) (s : State) : (takeException e s).nchunk = 0 := by cases e; rfl
@[simp] theorem takeException_err (e : HwException) (s : State) : (takeException e s).err = true := by cases e; rfl
@[simp] theorem takeException_digest (e : HwException) (s : State) : (takeException e s).digest = freeDigest s.freeEpoch := by cases e; rfl
@[simp] theorem takeException_msg (e : HwException) (s : State) : (takeException e s).msg = [] := by cases e; rfl
@[simp] theorem takeException_pmsg (e : HwException) (s : State) : (takeException e s).pmsg = [] := by cases e; rfl
@[simp] theorem takeException_trace (e : HwException) (s : State) : (takeException e s).trace = [] := by cases e; rfl
@[simp] theorem takeException_moves (e : HwException) (s : State) : (takeException e s).moves = s.moves := by cases e; rfl
@[simp] theorem takeException_freeEpoch (e : HwException) (s : State) : (takeException e s).freeEpoch = s.freeEpoch + 1 := by cases e; rfl

@[simp] theorem nextRound_h (s : State) : (nextRound s).h = s.h := by unfold nextRound; split <;> rfl
@[simp] theorem nextRound_w (s : State) : (nextRound s).w = s.w := by unfold nextRound; split <;> rfl
@[simp] theorem nextRound_m (s : State) : (nextRound s).m = s.m := by unfold nextRound; split <;> rfl
@[simp] theorem nextRound_ph (s : State) : (nextRound s).ph = (if s.ridx.toNat < 63 then .rnd else .cen) := by unfold nextRound; split <;> rfl
@[simp] theorem nextRound_cidx (s : State) : (nextRound s).cidx = s.cidx := by unfold nextRound; split <;> rfl
@[simp] theorem nextRound_ridx (s : State) : (nextRound s).ridx = (if s.ridx.toNat < 63 then s.ridx + 1 else 0) := by unfold nextRound; split <;> rfl
@[simp] theorem nextRound_evn (s : State) : (nextRound s).evn = s.evn := by unfold nextRound; split <;> rfl
@[simp] theorem nextRound_mlen (s : State) : (nextRound s).mlen = s.mlen := by unfold nextRound; split <;> rfl
@[simp] theorem nextRound_plen (s : State) : (nextRound s).plen = s.plen := by unfold nextRound; split <;> rfl
@[simp] theorem nextRound_nchunk (s : State) : (nextRound s).nchunk = s.nchunk := by unfold nextRound; split <;> rfl
@[simp] theorem nextRound_err (s : State) : (nextRound s).err = s.err := by unfold nextRound; split <;> rfl
@[simp] theorem nextRound_digest (s : State) : (nextRound s).digest = s.digest := by unfold nextRound; split <;> rfl
@[simp] theorem nextRound_msg (s : State) : (nextRound s).msg = s.msg := by unfold nextRound; split <;> rfl
@[simp] theorem nextRound_pmsg (s : State) : (nextRound s).pmsg = s.pmsg := by unfold nextRound; split <;> rfl
@[simp] theorem nextRound_trace (s : State) : (nextRound s).trace = s.trace := by unfold nextRound; split <;> rfl
@[simp] theorem nextRound_moves (s : State) : (nextRound s).moves = s.moves := by unfold nextRound; split <;> rfl
@[simp] theorem nextRound_freeEpoch (s : State) : (nextRound s).freeEpoch = s.freeEpoch := by unfold nextRound; split <;> rfl

@[simp] theorem nextChunk_h (s : State) : (nextChunk s).h = s.h := by unfold nextChunk; split <;> rfl
@[simp] theorem nextChunk_w (s : State) : (nextChunk s).w = s.w := by unfold nextChunk; split <;> rfl
@[simp] theorem nextChunk_m (s : State) : (nextChunk s).m = s.m := by unfold nextChunk; split <;> rfl
@[simp] theorem nextChunk_ph (s : State) : (nextChunk s).ph = (if s.cidx + 1 < s.nchunk then .cst else .don) := by unfold nextChunk; split <;> rfl
@[simp] theorem nextChunk_cidx (s : State) : (nextChunk s).cidx = (if s.cidx + 1 < s.nchunk then s.cidx + 1 else 0) := by unfold nextChunk; split <;> rfl
@[simp] theorem nextChunk_ridx (s : State) : (nextChunk s).ridx = (0) := by unfold nextChunk; split <;> rfl
@[simp] theorem nextChunk_evn (s : State) : (nextChunk s).evn = s.evn := by unfold nextChunk; split <;> rfl
@[simp] theorem nextChunk_mlen (s : State) : (nextChunk s).mlen = s.mlen := by unfold nextChunk; split <;> rfl
@[simp] theorem nextChunk_plen (s : State) : (nextChunk s).plen = s.plen := by unfold nextChunk; split <;> rfl
@[simp] theorem nextChunk_nchunk (s : State) : (nextChunk s).nchunk = s.nchunk := by unfold nextChunk; split <;> rfl
@[simp] theorem nextChunk_err (s : State) : (nextChunk s).err = s.err := by unfold nextChunk; split <;> rfl
@[simp] theorem nextChunk_digest (s : State) : (nextChunk s).digest = s.digest := by unfold nextChunk; split <;> rfl
@[simp] theorem nextChunk_msg (s : State) : (nextChunk s).msg = s.msg := by unfold nextChunk; split <;> rfl
@[simp] theorem nextChunk_pmsg (s : State) : (nextChunk s).pmsg = s.pmsg := by unfold nextChunk; split <;> rfl
@[simp] theorem nextChunk_trace (s : State) : (nextChunk s).trace = s.trace := by unfold nextChunk; split <;> rfl
@[simp] theorem nextChunk_moves (s : State) : (nextChunk s).moves = s.moves := by unfold nextChunk; split <;> rfl
@[simp] theorem nextChunk_freeEpoch (s : State) : (nextChunk s).freeEpoch = s.freeEpoch := by unfold nextChunk; split <;> rfl

end Sys2Proof.Machine
end

