-- ==== Sys2Proof/Laws/Ops.lean ====
section
/-! SUPPORT. One lemma per shared operation and per meaning that says once everything it can do; later proofs cite these and do not
unfold the meanings. -/

namespace Sys2Proof.Machine

/-- `MemRead(MSG, 0, MLEN)` answers the `MLEN` bytes of `MSG`. -/
theorem readMessage_eq_some (s : State) (b : List Byte) :
    readMessage s = some b ↔ b.length = s.mlen ∧ ∀ k, k < s.mlen → Cells.read s.msg k = b[k]? := by
  simpa [readMessage] using Cells.readSeq_eq_some s.msg 0 s.mlen b

/-- The words of a chunk are those of its 64 bytes. -/
theorem chunkBlock_eq_some (pmsg : Memory) (c : Nat) (m : Block) :
    chunkBlock pmsg c = some m ↔ ∃ bs, Cells.readSeq pmsg (64 * c) 64 = some bs ∧ m = decodeBlock bs := by
  unfold chunkBlock chunkBytes
  cases Cells.readSeq pmsg (64 * c) 64 with
  | none => simp
  | some bs => simp [eq_comm]

/-- A chunk cannot be read exactly when one of its 64 bytes does not exist. -/
theorem chunkBlock_eq_none (pmsg : Memory) (c : Nat) :
    chunkBlock pmsg c = none ↔ Cells.readSeq pmsg (64 * c) 64 = none := by
  unfold chunkBlock chunkBytes
  cases Cells.readSeq pmsg (64 * c) 64 <;> simp

/-- PRE either pads the message and goes to chunk 0, or faults because a message byte does not exist. -/
theorem execPre_cases (s : State) :
    (∃ b, readMessage s = some b ∧
      execPre s = .next (setPc .cst 0 0 (emit (.preprocess (preprocessEvent s (pad b))) (padInto b s)))) ∨
    (readMessage s = none ∧ execPre s = .fault (.absentElement .msg)) := by
  unfold execPre
  cases readMessage s with
  | none => exact .inr ⟨rfl, rfl⟩
  | some b => exact .inl ⟨b, rfl, rfl⟩

/-- CST either loads chunk `CIDX` and goes to round 0, or faults because a byte of it does not exist. -/
theorem execCst_cases (s : State) :
    (∃ words, chunkBlock s.pmsg s.cidx = some words ∧
      execCst s =
        .next (setPc .rnd s.cidx 0 (emit (.chunkStart (chunkStartEvent s words)) { s with m := words, w := s.h }))) ∨
    (chunkBlock s.pmsg s.cidx = none ∧ execCst s = .fault (.absentElement .pmsg)) := by
  unfold execCst
  cases chunkBlock s.pmsg s.cidx with
  | none => exact .inr ⟨rfl, rfl⟩
  | some words => exact .inl ⟨words, rfl, rfl⟩

/-- A round step always answers a next state: the round's registers, its event, and the next position. -/
theorem roundStep_eq (fam : Family) (s : State) :
    roundStep fam s =
      .next (nextRound (emit (.round (roundEvent s (familyRound fam s.ridx s.w s.m)))
        { s with w := (familyRound fam s.ridx s.w s.m).regs })) := rfl

/-- CEN always answers a next state: the folded hash, its event, and the next chunk or DON. -/
theorem execCen_eq (s : State) :
    execCen s =
      .next (nextChunk (emit (.chunkEnd (chunkEndEvent s (foldQuad s.h s.w))) { s with h := foldQuad s.h s.w })) := rfl

/-- DON always answers a next state. -/
theorem execDon_eq (s : State) :
    execDon s = .next (setPc .halt 0 0 (emit (.done { hash := s.h, digest := fmt s.h }) { s with digest := fmt s.h })) := rfl

/-- HLT always answers the same state. -/
theorem execHlt_eq (s : State) : execHlt s = .next s := rfl

/-- What `Launch` can do. -/
theorem launch_cases (p : Params) (b : List Byte) (s : State) :
    (busy s = false ∧ withinCap p.maxLen b.length = true ∧ withinCap p.traceCap (eventsNeeded b.length) = true ∧
      launch p b s = .next (launched b s)) ∨
    (∃ r, launch p b s = .refused r) := by
  unfold launch
  cases busy s <;> cases withinCap p.maxLen b.length <;> cases withinCap p.traceCap (eventsNeeded b.length) <;> simp

/-- What a host command can do when it answers a next state. -/
theorem hostExec_next (p : Params) (c : HostCommand) (s t : State) (h : hostExec p c s = .next t) :
    (busy s = false ∧ ∃ b, withinCap p.maxLen b.length = true ∧ withinCap p.traceCap (eventsNeeded b.length) = true ∧
      t = launched b s) ∨
    (busy s = false ∧ ∃ e, t = takeException e s) ∨ (c = .reset ∧ t = idleState s) := by
  have launch_next : ∀ b, launch p b s = .next t → busy s = false ∧ ∃ b, withinCap p.maxLen b.length = true ∧
      withinCap p.traceCap (eventsNeeded b.length) = true ∧ t = launched b s := by
    intro b hb
    rcases launch_cases p b s with ⟨h1, h2, h3, h4⟩ | ⟨r, hr⟩
    · rw [h4] at hb
      exact ⟨h1, b, h2, h3, (Host.Outcome.next.inj hb).symm⟩
    · rw [hr] at hb; cases hb
  cases c with
  | launch b => exact .inl (launch_next b h)
  | launchText text mode =>
    simp only [hostExec, launchText] at h
    split at h
    · cases h
    · rename_i hb
      split at h
      · cases h
      · split at h
        · cases h
        · split at h
          · rename_i e _
            exact .inr (.inl ⟨by simpa using hb, e, (Host.Outcome.next.inj h).symm⟩)
          · exact .inl (launch_next _ h)
  | reset => exact .inr (.inr ⟨rfl, (Host.Outcome.next.inj h).symm⟩)

/-- The operation the sequencer selects in each phase (30_encoding.md R60, R62). -/
theorem decode_fetchCode (s : State) :
    decode (fetchCode s) =
      match s.ph with
      | .idle => .ok .hlt
      | .pre => .ok .pre
      | .cst => .ok .cst
      | .rnd => .ok (rndInstr s.ridx)
      | .cen => .ok .cen
      | .don => .ok .don
      | .halt => .ok .hlt := by
  have rounds : ∀ i : BitVec 6, decode (stepCode .rnd i) = .ok (rndInstr i) := by decide
  unfold fetchCode
  cases s.ph with
  | rnd => exact rounds s.ridx
  | idle => exact (by decide : decode 0x04 = .ok .hlt)
  | pre => exact (by decide : decode 0x00 = .ok .pre)
  | cst => exact (by decide : decode 0x01 = .ok .cst)
  | cen => exact (by decide : decode 0x02 = .ok .cen)
  | don => exact (by decide : decode 0x03 = .ok .don)
  | halt => exact (by decide : decode 0x04 = .ok .hlt)

/-- The round operation of a round index is the round step of the index's own family. -/
theorem exec_rndInstr (i : BitVec 6) (s : State) : exec (rndInstr i) s = roundStep (familyOf i) s := by
  unfold rndInstr
  cases familyOf i <;> rfl

/-- What the sequencer does in each phase. -/
theorem engineStep_eq (s : State) :
    engineStep s =
      match s.ph with
      | .idle => .next s
      | .pre => execPre s
      | .cst => execCst s
      | .rnd => roundStep (familyOf s.ridx) s
      | .cen => execCen s
      | .don => execDon s
      | .halt => .next s := by
  unfold engineStep
  rw [decode_fetchCode]
  cases s.ph with
  | rnd => exact exec_rndInstr s.ridx s
  | idle => rfl
  | pre => rfl
  | cst => rfl
  | cen => rfl
  | don => rfl
  | halt => rfl

/-- A read of an element that does not exist is refused. -/
@[simp] theorem elementWhenDone_none (s : State) : elementWhenDone s none = .error .readOutOfRange := rfl

/-- A read of an element that exists succeeds exactly when the run is over. -/
theorem elementWhenDone_some (s : State) (v : HostValue) :
    elementWhenDone s (some v) = if done s then .ok v else .error .readForbidden := rfl

/-- In a quiescent engine every ROM entry can be read, and only those. -/
theorem romsReadable_of_quiet (s : State) (hb : busy s = false) : RomsReadable s where
  krom := fun i =>
    ⟨fun h => by simp [hostRead, h, whenQuiet, hb], fun h => ⟨.readOutOfRange, by simp [hostRead, show ¬ i < 64 by omega]⟩⟩
  srom := fun i =>
    ⟨fun h => by simp [hostRead, h, whenQuiet, hb], fun h => ⟨.readOutOfRange, by simp [hostRead, show ¬ i < 64 by omega]⟩⟩
  ivrom := by
    refine ⟨?_, ?_, ?_, ?_, fun k h => ⟨.readOutOfRange, ?_⟩⟩
    · simp [hostRead, quadGet, whenQuiet, hb]
    · simp [hostRead, quadGet, whenQuiet, hb]
    · simp [hostRead, quadGet, whenQuiet, hb]
    · simp [hostRead, quadGet, whenQuiet, hb]
    · match k, h with
      | n + 4, _ => rfl
  fdesc := by
    refine ⟨fun fam => by cases fam <;> simp [hostRead, familyCode, familyOfCode, whenQuiet, hb],
      fun k h => ⟨.readOutOfRange, ?_⟩⟩
    match k, h with
    | n + 4, _ => rfl

/-- The memories of the state after reset are in their canonical form. -/
theorem reset_memories_wf : Memory.wf State.reset.msg ∧ Memory.wf State.reset.pmsg ∧ Cells.wf State.reset.trace :=
  ⟨Cells.wf_nil, Cells.wf_nil, Cells.wf_nil⟩

/-- The state of R26 that a host action reaches meets the invariant. -/
theorem idleState_inv (s : State) : Inv (idleState s) where
  canonical := ⟨Cells.wf_nil, Cells.wf_nil, Cells.wf_nil⟩
  msgRange := Cells.covers_nil
  pmsgRange := Cells.covers_nil
  traceRange := Cells.covers_nil
  geometry := ⟨rfl, rfl⟩
  padding := by simp [padded, idleState]
  chunkIndex := by simp [inChunk, idleState]
  roundIndex := by simp
  events := rfl
  untouched := by simp
  idle := by simp
  buffer := by simp
  finished := by simp

/-- So does the state after `InvalidHexInput` is taken. -/
theorem takeException_inv (e : HwException) (s : State) : Inv (takeException e s) := by
  cases e
  exact {
  canonical := ⟨Cells.wf_nil, Cells.wf_nil, Cells.wf_nil⟩
  msgRange := Cells.covers_nil
  pmsgRange := Cells.covers_nil
  traceRange := Cells.covers_nil
  geometry := ⟨rfl, rfl⟩
  padding := by simp [padded, takeException, idleState]
  chunkIndex := by simp [inChunk, takeException, idleState]
  roundIndex := by simp [takeException]
  events := rfl
  untouched := by simp [takeException]
  idle := by simp [takeException]
  buffer := by simp [takeException]
  finished := by simp [takeException] }

/-- So does the state after a launch. -/
theorem launched_inv (b : List Byte) (s : State) : Inv (launched b s) where
  canonical := ⟨Cells.wf_writeSeq _ _ _ Cells.wf_nil, Cells.wf_nil, Cells.wf_nil⟩
  msgRange := Cells.covers_writeSeq_nil b
  pmsgRange := Cells.covers_nil
  traceRange := Cells.covers_nil
  geometry := ⟨rfl, rfl⟩
  padding := by simp [padded, launched, idleState]
  chunkIndex := by simp [inChunk, launched, idleState]
  roundIndex := by simp
  events := rfl
  untouched := by simp
  idle := by simp
  buffer := by simp
  finished := by simp

/-- A launch establishes the launch premises. -/
theorem launched_premises (b : List Byte) (s : State) : LaunchPremises b (launched b s) where
  phase := ⟨rfl, rfl, rfl⟩
  counters := ⟨rfl, rfl⟩
  hash := rfl
  length := rfl
  message := by
    intro k
    show Cells.read (Cells.writeSeq [] 0 b) k = _
    rw [Cells.read_writeSeq]
    split
    · simp
    · simp; omega
  empty := ⟨rfl, rfl, rfl, rfl⟩

end Sys2Proof.Machine
end

