-- ==== Sys2Proof/Laws/PerInstr.lean ====
section
/-! SUPPORT. The family OwnRow: the code of a well-formed operation is selected by the operation's own row of the opcode map and by
no other (30_encoding.md R62). -/

namespace Sys2Proof.Laws.OwnRow

/-- The rows that select the operation's code are exactly its own. -/
def Statement (i : Instr) : Prop := i.WellFormed → opcodeMap.filter (fun r => r.selects (encode i)) = [i.row]

theorem pre : Statement .pre := fun _ => by decide

theorem cst : Statement .cst := fun _ => by decide

theorem cen : Statement .cen := fun _ => by decide

theorem don : Statement .don := fun _ => by decide

theorem hlt : Statement .hlt := fun _ => by decide

theorem rndF (i : BitVec 6) : Statement (.rndF i) := by
  revert i
  show ∀ i : BitVec 6, Family.owns .F i = true → opcodeMap.filter (fun r => r.selects (roundCode i)) = [rowRndF]
  decide

theorem rndG (i : BitVec 6) : Statement (.rndG i) := by
  revert i
  show ∀ i : BitVec 6, Family.owns .G i = true → opcodeMap.filter (fun r => r.selects (roundCode i)) = [rowRndG]
  decide

theorem rndH (i : BitVec 6) : Statement (.rndH i) := by
  revert i
  show ∀ i : BitVec 6, Family.owns .H i = true → opcodeMap.filter (fun r => r.selects (roundCode i)) = [rowRndH]
  decide

theorem rndI (i : BitVec 6) : Statement (.rndI i) := by
  revert i
  show ∀ i : BitVec 6, Family.owns .I i = true → opcodeMap.filter (fun r => r.selects (roundCode i)) = [rowRndI]
  decide

end Sys2Proof.Laws.OwnRow
end

