-- ==== Sys2Proof/Tests/Slice0.lean ====
section
/-! SUPPORT. Tests, each one step or one function on a small input, with expected values from the spec (the file and section or rule is
named at each test), and a witness for the hypotheses of every statement that has some. -/

namespace Sys2Proof.Tests

open Sys2Proof Sys2Proof.Machine

/-! ## WellFormed refuses -/

/-- R61: round 15 belongs to F and round 16 to G, and so on. -/
theorem test_wellFormed_family_bounds :
    (Instr.rndF 16).wellFormed = false ∧ (Instr.rndG 15).wellFormed = false ∧ (Instr.rndG 32).wellFormed = false ∧
    (Instr.rndH 31).wellFormed = false ∧ (Instr.rndH 48).wellFormed = false ∧ (Instr.rndI 47).wellFormed = false := by decide

/-- R74: a listing entry with a missing, superfluous or wrong operand, or a family that does not own its round. -/
theorem test_wellFormed_listing :
    (ListingOp.mk .pre (some 0)).wellFormed = false ∧ (ListingOp.mk .cst none).wellFormed = false ∧
    (ListingOp.mk .cen none).wellFormed = false ∧ (ListingOp.mk .don (some 1)).wellFormed = false ∧
    (ListingOp.mk .hlt (some 1)).wellFormed = false ∧ (ListingOp.mk (.rndF 3) (some 4)).wellFormed = false ∧
    (ListingOp.mk (.rndG 3) (some 3)).wellFormed = false ∧ (ListingOp.mk (.rndH 3) (some 3)).wellFormed = false ∧
    (ListingOp.mk (.rndI 3) (some 3)).wellFormed = false := by decide

/-! ## Decoding of words written out from R60 to R62 -/

theorem test_decode_control :
    decode 0b0000000#7 = .ok .pre ∧ decode 0b0000001#7 = .ok .cst ∧ decode 0b0000010#7 = .ok .cen ∧
    decode 0b0000011#7 = .ok .don ∧ decode 0b0000100#7 = .ok .hlt := by decide

theorem test_decode_round_bounds :
    decode 0b1000000#7 = .ok (.rndF 0) ∧ decode 0b1001111#7 = .ok (.rndF 15) ∧ decode 0b1010000#7 = .ok (.rndG 16) ∧
    decode 0b1011111#7 = .ok (.rndG 31) ∧ decode 0b1100000#7 = .ok (.rndH 32) ∧ decode 0b1101111#7 = .ok (.rndH 47) ∧
    decode 0b1110000#7 = .ok (.rndI 48) ∧ decode 0b1111111#7 = .ok (.rndI 63) := by decide

/-- R63: the ends of the reserved range. -/
theorem test_decode_reserved :
    decode 0b0000101#7 = .error (.reservedStepCode 5) ∧ decode 0b0111111#7 = .error (.reservedStepCode 0x3F) := by decide

/-- A table word of eight bits: bit 7 set is no step code. -/
theorem test_decodeTableWord :
    decodeTableWord 8 0x7F = some (.rndI 63) ∧ decodeTableWord 8 0x80 = none ∧ decodeTableWord 8 0x05 = none := by decide

/-- R62: no two rows of the opcode map select one step code. -/
theorem test_opcode_rows_disjoint :
    ∀ sc : StepCode, (opcodeMap.filter fun r => r.selects sc).length ≤ 1 := by decide

/-- R74's example, and lines of 95_test_vectors.md section 4 (P1). -/
theorem test_listing_lines :
    listingLine 67 ⟨.cst, some 1⟩ = "67: 01  CST 1" ∧ listingLine 66 ⟨.cen, some 0⟩ = "66: 02  CEN 0" ∧ listingLine 0 ⟨.pre, none⟩ = "0: 00  PRE" ∧
    listingLine 18 ⟨.rndG 16, some 16⟩ = "18: 50  RND.G 16" := by decide

/-! ## Small states -/

/-- The parameters of the tests. -/
def anyParams : Params := Params.default

/-- "abc" loaded, at PRE. -/
def atPre : State := launched [0x61, 0x62, 0x63] State.reset

/-- "abc" padded, at CST of chunk 0, the Preprocess event's slot used by another event. -/
def atCst : State :=
  { State.reset with
    ph := .cst, mlen := 3, plen := 64, nchunk := 1, msg := [(0, 0x61), (1, 0x62), (2, 0x63)],
    pmsg := Cells.writeSeq [] 0 (pad [0x61, 0x62, 0x63]), evn := 1,
    trace := [(0, .done { hash := ivrom, digest := fmt ivrom })] }

/-- The empty message's words in `M` (P1, event 1). -/
def emptyBlock : Block := #v[0x80, 0, 0, 0, 0, 0, 0, 0, 0, 0, 0, 0, 0, 0, 0, 0]

/-- Round `i` of the empty message's chunk, registers `w`. -/
def atRound (i : BitVec 6) (w : Quad) : State :=
  { State.reset with ph := .rnd, ridx := i, w := w, m := emptyBlock, nchunk := 1 }

/-- The end of chunk `c` of two, with the last registers of the empty message (P1, event 66). -/
def atCen (c n : Nat) : State :=
  { State.reset with
    ph := .cen, cidx := c, nchunk := n, evn := 66, w := ⟨0x7246fad3, 0x14e45506, 0xff4ea3eb, 0x6e10a476⟩ }

/-- The hash of the empty message, at DON. -/
def atDon : State :=
  { State.reset with ph := .don, nchunk := 1, evn := 67, h := ⟨0xd98c1dd4, 0x04b2008f, 0x980980e9, 0x7e42f8ec⟩ }

/-- What `f` sees of the next state, if there is one. -/
def after {α : Type} (o : Host.Outcome State Fault Refusal) (f : State → α) : Option α :=
  match o with
  | .next t => some (f t)
  | .fault _ => none
  | .refused _ => none

/-- The position of the sequencer. -/
def position (s : State) : Phase × Nat × BitVec 6 := (s.ph, s.cidx, s.ridx)

/-- The four words of a hash or of the registers. -/
def words (q : Quad) : List Word := [q.a, q.b, q.c, q.d]

/-! ## One step of each operation -/

/-- R106, P2: the row L = 3 and the bytes of "abc" padded. -/
theorem test_pre_abc :
    after (exec .pre atPre) (fun t => (t.plen, t.nchunk, t.evn)) = some (64, 1, 1) ∧
    after (exec .pre atPre) position = some (.cst, 0, 0) ∧
    after (exec .pre atPre) (fun t => Cells.readSeq t.pmsg 0 64) =
      some (some ([0x61, 0x62, 0x63, 0x80] ++ List.replicate 52 0x00 ++ [0x18, 0, 0, 0, 0, 0, 0, 0])) := by decide

/-- P2, event 0. -/
theorem test_pre_event :
    after (exec .pre atPre) (fun t => Cells.read t.trace 0) =
      some (some (.preprocess
        { origBytes := 3, origBits := 24, paddedBytes := 64, paddedBits := 512, bytesAdded := 61, chunkCount := 1,
          initDigest := ⟨⟨asciiOf "0123456789abcdeffedcba9876543210"⟩, by decide⟩ })) := by decide

/-- P2, event 1: the words of chunk 0 and the registers. -/
theorem test_cst_abc :
    after (exec .cst atCst) (fun t => t.m.toList) =
      some [0x80636261, 0, 0, 0, 0, 0, 0, 0, 0, 0, 0, 0, 0, 0, 0x18, 0] ∧
    after (exec .cst atCst) (fun t => words t.w) = some [0x67452301, 0xefcdab89, 0x98badcfe, 0x10325476] ∧
    after (exec .cst atCst) position = some (.rnd, 0, 0) := by decide

/-- A chunk with a byte missing. -/
theorem test_cst_missing :
    (match exec .cst { atCst with cidx := 1 } with
     | .fault r => r == .absentElement .pmsg
     | .next _ => false
     | .refused _ => false) = true := by decide

/-- R129's worked example, row 0 of P1. -/
theorem test_rndF_round0 :
    after (exec (.rndF 0) (atRound 0 ⟨0x67452301, 0xefcdab89, 0x98badcfe, 0x10325476⟩)) (fun t => words t.w) =
      some [0x10325476, 0xa5202774, 0xefcdab89, 0x98badcfe] ∧
    (roundEvent (atRound 0 ivrom) (familyRound .F 0 ivrom emptyBlock)).preview.toList =
      asciiOf "77777777fdd2ed94878888887431eda8" := by decide

/-- 95_test_vectors.md 2.11: `(RND, 0, 15)` to `(RND, 0, 16)`, and row 15 of P1. -/
theorem test_rndF_round15 :
    after (exec (.rndF 15) (atRound 15 ⟨0x70768a29, 0x5aa53f75, 0x374943a7, 0xf56c7cf1⟩)) position = some (.rnd, 0, 16) ∧
    after (exec (.rndF 15) (atRound 15 ⟨0x70768a29, 0x5aa53f75, 0x374943a7, 0xf56c7cf1⟩)) (fun t => words t.w) =
      some [0xf56c7cf1, 0xd6819c6a, 0x5aa53f75, 0x374943a7] := by decide

/-- R130's worked example. -/
theorem test_rndG_round16 :
    after (exec (.rndG 16) (atRound 16 ⟨0xf56c7cf1, 0xd6819c6a, 0x5aa53f75, 0x374943a7⟩)) (fun t => words t.w) =
      some [0x374943a7, 0x1c7d7513, 0xd6819c6a, 0x5aa53f75] := by decide

/-- R131's worked example. -/
theorem test_rndH_round32 :
    after (exec (.rndH 32) (atRound 32 ⟨0x13707036, 0xa2205f1f, 0x1c31c384, 0xae7813db⟩)) (fun t => words t.w) =
      some [0xae7813db, 0xdf63eaa1, 0xa2205f1f, 0x1c31c384] := by decide

/-- R132's worked example. -/
theorem test_rndI_round48 :
    after (exec (.rndI 48) (atRound 48 ⟨0x3f55edfd, 0xca7d2dbd, 0x68d84ea2, 0x22a31f54⟩)) (fun t => words t.w) =
      some [0x22a31f54, 0x93aa2577, 0xca7d2dbd, 0x68d84ea2] := by decide

/-- Rows 62 and 63 of P1: the last round, whose preview is the digest, and the end of the chunk. -/
theorem test_rndI_round63 :
    after (exec (.rndI 63) (atRound 63 ⟨0x30130182, 0xff4ea3eb, 0x6e10a476, 0x7246fad3⟩)) position = some (.cen, 0, 0) ∧
    after (exec (.rndI 63) (atRound 63 ⟨0x30130182, 0xff4ea3eb, 0x6e10a476, 0x7246fad3⟩)) (fun t => words t.w) =
      some [0x7246fad3, 0x14e45506, 0xff4ea3eb, 0x6e10a476] := by decide

/-- P1, event 66, and 95_test_vectors.md 2.11: the last chunk goes to DON. -/
theorem test_cen_empty :
    after (exec .cen (atCen 0 1)) (fun t => words t.h) = some [0xd98c1dd4, 0x04b2008f, 0x980980e9, 0x7e42f8ec] ∧
    after (exec .cen (atCen 0 1)) position = some (.don, 0, 0) ∧
    after (exec .cen (atCen 1 2)) position = some (.don, 0, 0) := by decide

/-- 95_test_vectors.md 2.11: `(CEN, 0, 0)` to `(CST, 1, 0)` with `NCHUNK = 2`. -/
theorem test_cen_next_chunk : after (exec .cen (atCen 0 2)) position = some (.cst, 1, 0) := by decide

/-- P1, event 67 and end state. -/
theorem test_don_empty :
    after (exec .don atDon) (fun t => t.digest.toList) = some (asciiOf "d41d8cd98f00b204e9800998ecf8427e") ∧
    after (exec .don atDon) (fun t => (t.evn, status t)) = some (68, 2) ∧
    after (exec .don atDon) position = some (.halt, 0, 0) := by decide

/-- R159. -/
theorem test_hlt : after (exec .hlt atDon) id = some atDon := by decide

/-- R60: a state placed at a table word runs it. -/
theorem test_withFetchWord :
    position (State.reset.withFetchWord 8 0x51) = (.rnd, 0, 17) ∧
    after (step (State.reset.withFetchWord 8 0x01)) position = some (.rnd, 0, 0) ∧
    after (step (State.reset.withFetchWord 8 0x04)) id = some State.reset := by decide

/-! ## The units (95_test_vectors.md section 2) -/

/-- 2.1, text mode. -/
theorem test_text_mode :
    utf8 (codePoints "abc") = [0x61, 0x62, 0x63] ∧
    utf8 [0xE9, 0x20AC, 0x1F600] = [0xC3, 0xA9, 0xE2, 0x82, 0xAC, 0xF0, 0x9F, 0x98, 0x80] ∧ utf8 [] = [] := by decide

/-- 2.1, hex mode. -/
theorem test_hex_mode :
    normalizeText anyParams (codePoints "61 62 63") .hex = .ok [0x61, 0x62, 0x63] ∧
    normalizeText anyParams (codePoints "6 1") .hex = .ok [0x61] ∧
    normalizeText anyParams (codePoints "DeadBEEF") .hex = .ok [0xDE, 0xAD, 0xBE, 0xEF] ∧
    normalizeText anyParams (codePoints "   ") .hex = .ok [] ∧
    normalizeText anyParams (codePoints "a") .hex = .error .invalidHexInput ∧
    normalizeText anyParams (codePoints "0g") .hex = .error .invalidHexInput ∧
    normalizeText anyParams (codePoints "0x61") .hex = .error .invalidHexInput := by decide

/-- R104, R106: the rows of the padding table. -/
theorem test_padding_table :
    [0, 3, 55, 56, 63, 64, 119, 120].map zeroFill = [55, 52, 0, 63, 56, 55, 0, 63] ∧
    [0, 3, 55, 56, 63, 64, 119, 120].map chunkCountOf = [1, 1, 1, 2, 2, 2, 2, 3] ∧
    lengthSuffix 56 = [0xC0, 0x01, 0, 0, 0, 0, 0, 0] ∧ lengthSuffix (2 ^ 61) = [0, 0, 0, 0, 0, 0, 0, 0] ∧
    lengthSuffix (2 ^ 61 + 1) = [8, 0, 0, 0, 0, 0, 0, 0] ∧ lengthSuffix (2 ^ 29) = [0, 0, 0, 0, 1, 0, 0, 0] := by decide

/-- 2.3. -/
theorem test_chunk_words :
    wordAt [0x61, 0x62, 0x63, 0x80] 0 = 0x80636261 ∧ wordAt [0x01, 0x23, 0x45, 0x67] 0 = 0x67452301 ∧
    wordAt [0xC0, 0x01, 0x00, 0x00] 0 = 0x1C0 ∧ wordAt [0x00, 0x00, 0x00, 0x80] 0 = 0x80000000 := by decide

/-- 2.4. -/
theorem test_boolean_functions :
    boolFn .F 0x0f0f0f0f 0x33333333 0x55555555 = 0x53535353 ∧ boolFn .G 0x0f0f0f0f 0x33333333 0x55555555 = 0x27272727 ∧
    boolFn .H 0x0f0f0f0f 0x33333333 0x55555555 = 0x69696969 ∧ boolFn .I 0x0f0f0f0f 0x33333333 0x55555555 = 0x9c9c9c9c ∧
    boolFn .G 0xffffffff 0x12345678 0x9abcdef0 = 0x9abcdef8 := by decide

/-- 2.6, 2.7, 2.8, 2.9. -/
theorem test_arithmetic :
    add4 0x67452301 0x98badcfe 0xd76aa478 0x80 = 0xd76aa4f7 ∧
    add4 0xffffffff 0xffffffff 0xffffffff 0xffffffff = 0xfffffffc ∧
    rotl32 0xd76aa4f7 7 = 0xb5527beb ∧ rotl32 0x00000001 31 = 0x80000000 ∧ rotl32 0x12345678 23 = 0x3c091a2b ∧
    words (rotateRegs ⟨0x11111111, 0xf0000000, 0x33333333, 0x44444444⟩ 0x20000005) =
      [0x44444444, 0x10000005, 0xf0000000, 0x33333333] ∧
    words (foldQuad ⟨0xffffffff, 0x80000000, 0, 0x12345678⟩ ⟨1, 0x80000000, 0, 0xedcba988⟩) = [0, 0, 0, 0] := by decide

/-- R182. -/
theorem test_fmt :
    (fmt ⟨0x0000000a, 0xffffffff, 0x00000100, 0x80000000⟩).toList = asciiOf "0a000000ffffffff0001000000000080" ∧
    parseDigest (fmt ⟨0xd98c1dd4, 0x04b2008f, 0x980980e9, 0x7e42f8ec⟩) =
      some ⟨0xd98c1dd4, 0x04b2008f, 0x980980e9, 0x7e42f8ec⟩ := by decide

/-- 2.12: the Done record of the empty message. -/
theorem test_serialize_done :
    serialize (.done
      { hash := ⟨0xd98c1dd4, 0x04b2008f, 0x980980e9, 0x7e42f8ec⟩,
        digest := fmt ⟨0xd98c1dd4, 0x04b2008f, 0x980980e9, 0x7e42f8ec⟩ }) =
      [0x04, 0xd4, 0x1d, 0x8c, 0xd9, 0x8f, 0x00, 0xb2, 0x04, 0xe9, 0x80, 0x09, 0x98, 0xec, 0xf8, 0x42, 0x7e] ++
      [0x64, 0x34, 0x31, 0x64, 0x38, 0x63, 0x64, 0x39, 0x38, 0x66, 0x30, 0x30, 0x62, 0x32, 0x30, 0x34] ++
      [0x65, 0x39, 0x38, 0x30, 0x30, 0x39, 0x39, 0x38, 0x65, 0x63, 0x66, 0x38, 0x34, 0x32, 0x37, 0x65] := by decide

/-- 2.12: the Round record of round 0 of the empty message, up to the registers. -/
theorem test_serialize_round :
    (serialize (.round (roundEvent (atRound 0 ivrom) (familyRound .F 0 ivrom emptyBlock)))).take 34 =
      [0x02, 0, 0, 0, 0, 0, 0, 0, 0, 0x00, 0x01, 0x00, 0x00, 0x80, 0x00, 0x00, 0x00, 0x07, 0x78, 0xa4, 0x6a, 0xd7] ++
      [0xfe, 0xdc, 0xba, 0x98, 0xf7, 0xa4, 0x6a, 0xd7, 0xeb, 0x7b, 0x52, 0xb5] := by decide

/-! ## The host -/

/-- R191: the exception's entry; R17: `STATUS`. -/
theorem test_invalid_hex_entry :
    after (hostExec anyParams (.launchText (codePoints "zz") 1) State.reset) (fun t => (t.err, t.evn, status t)) =
      some (true, 0, 4) := by decide

/-- R200, R201: what a launch refuses. -/
theorem test_refusals :
    (match hostExec anyParams (.launch []) atPre with | .refused r => r == .launchWhileBusy | _ => false) = true ∧
    (match hostExec { anyParams with maxLen := some 2 } (.launch [1, 2, 3]) State.reset with
     | .refused r => r == .messageTooLong | _ => false) = true ∧
    (match hostExec { anyParams with traceCap := some 67 } (.launch []) State.reset with
     | .refused r => r == .traceTooLarge | _ => false) = true ∧
    (match hostExec anyParams (.launchText [] 2) State.reset with | .refused r => r == .noSuchMode | _ => false) = true ∧
    (match hostExec anyParams (.launchText [0xD800] 0) State.reset with
     | .refused r => r == .notScalarValue | _ => false) = true := by decide

/-- R24, R204: reads in each kind of phase. -/
theorem test_reads :
    hostRead (.register 4) atDon = .ok (.code 0x03) ∧ hostRead (.register 9) atDon = .error .readForbidden ∧
    hostRead (.register 9) State.reset = .ok (.word 0x67452301) ∧
    hostRead (.register 13) State.reset = .error .readForbidden ∧
    hostRead (.krom 0) State.reset = .ok (.word 0xd76aa478) ∧ hostRead (.krom 64) State.reset = .error .readOutOfRange ∧
    hostRead (.msg 3) { atCst with ph := .halt } = .error .readOutOfRange ∧
    hostRead (.chunkWord 0 14) { atCst with ph := .halt } = .ok (.word 0x18) ∧
    hostRead (.register 14) { atCen 0 1 with ph := .halt } = .ok (.word 0x14e45506) ∧
    hostRead (.register 15) { atCen 0 1 with ph := .halt } = .ok (.word 0xff4ea3eb) := by decide

/-! ## Witnesses: concrete states and operands that meet the hypotheses of the statements -/

/-- `DecodeOfEncodeIsTheInstruction`, `PositionedWordIsTheNextStep`: every constructor, the bounds of each family. -/
theorem witness_wellFormed :
    Instr.pre.WellFormed ∧ Instr.cst.WellFormed ∧ Instr.cen.WellFormed ∧ Instr.don.WellFormed ∧ Instr.hlt.WellFormed ∧
    (Instr.rndF 0).WellFormed ∧ (Instr.rndF 15).WellFormed ∧ (Instr.rndG 16).WellFormed ∧ (Instr.rndG 31).WellFormed ∧
    (Instr.rndH 32).WellFormed ∧ (Instr.rndH 47).WellFormed ∧ (Instr.rndI 48).WellFormed ∧ (Instr.rndI 63).WellFormed := by
  decide

/-- `EncodeOfDecodeIsTheStepCode`. -/
theorem witness_decoded : decode 0x00 = .ok .pre ∧ decode 0x04 = .ok .hlt ∧ decode 0x7F = .ok (.rndI 63) := by decide

/-- `SequencerPositionSelectsOperation`: each clause, the round clauses at both ends of each range. -/
theorem witness_positions :
    State.reset.ph = .idle ∧ atPre.ph = .pre ∧ atCst.ph = .cst ∧ (atCen 0 1).ph = .cen ∧ atDon.ph = .don ∧
    ({ atDon with ph := .halt } : State).ph = .halt ∧
    [0, 15, 16, 31, 32, 47, 48, 63].map (fun i => ((atRound i ivrom).ph, (atRound i ivrom).ridx.toNat)) =
      [(.rnd, 0), (.rnd, 15), (.rnd, 16), (.rnd, 31), (.rnd, 32), (.rnd, 47), (.rnd, 48), (.rnd, 63)] := by decide

/-- `StepRunsTheDecodedOperation`: the three cases of `moves`. -/
theorem witness_moves :
    (atPre.moves = [] ∧ decode (fetchCode atPre) = .ok .pre) ∧
    (let s := { atCst with moves := [.sequencer] }
     s.moves = .sequencer :: [] ∧ decode (fetchCode s) = .ok .cst) ∧
    ({ atCst with moves := [.host .reset, .sequencer] } : State).moves = .host .reset :: [.sequencer] := by decide

/-- `PrePadsTheMessage`: a message, the empty message, and the initial hash. -/
theorem witness_pre :
    (atPre.ph = .pre ∧ ([0x61, 0x62, 0x63] : List Byte).length = atPre.mlen ∧
      (∀ k, k < atPre.mlen → Cells.read atPre.msg k = ([0x61, 0x62, 0x63] : List Byte)[k]?) ∧ atPre.h = ivrom) ∧
    ((launched [] State.reset).ph = .pre ∧ ([] : List Byte).length = (launched [] State.reset).mlen ∧
      (∀ k, k < (launched [] State.reset).mlen → Cells.read (launched [] State.reset).msg k = ([] : List Byte)[k]?)) := by
  decide

/-- `CstLoadsTheChunk`. -/
theorem witness_cst :
    atCst.ph = .cst ∧ (pad [0x61, 0x62, 0x63]).length = 64 ∧
    ∀ k, k < 64 → Cells.read atCst.pmsg (64 * atCst.cidx + k) = (pad [0x61, 0x62, 0x63])[k]? := by decide

/-- `CenFoldsTheChunk` (another chunk, and the last one), `DonWritesTheDigest`, `HltChangesNothing`. -/
theorem witness_cen_don_hlt :
    ((atCen 0 2).ph = .cen ∧ (atCen 0 2).cidx + 1 < (atCen 0 2).nchunk) ∧
    ((atCen 1 2).ph = .cen ∧ ¬ (atCen 1 2).cidx + 1 < (atCen 1 2).nchunk) ∧ atDon.ph = .don ∧ State.reset.ph = .idle ∧
    ({ atDon with ph := .halt } : State).ph = .halt ∧ State.reset.moves = [] := by decide

/-- `RndFComputesTheRound` to `RndIComputesTheRound` at the ends of each range, round 62 and round 63. -/
theorem witness_rounds :
    ((atRound 0 ivrom).ph = .rnd ∧ (atRound 0 ivrom).ridx.toNat ≤ 15 ∧ (atRound 15 ivrom).ridx.toNat ≤ 15) ∧
    (16 ≤ (atRound 16 ivrom).ridx.toNat ∧ (atRound 16 ivrom).ridx.toNat ≤ 31) ∧
    (16 ≤ (atRound 31 ivrom).ridx.toNat ∧ (atRound 31 ivrom).ridx.toNat ≤ 31) ∧
    (32 ≤ (atRound 32 ivrom).ridx.toNat ∧ (atRound 32 ivrom).ridx.toNat ≤ 47) ∧
    (32 ≤ (atRound 47 ivrom).ridx.toNat ∧ (atRound 47 ivrom).ridx.toNat ≤ 47) ∧
    (48 ≤ (atRound 48 ivrom).ridx.toNat ∧ 48 ≤ (atRound 62 ivrom).ridx.toNat ∧ (atRound 62 ivrom).ridx.toNat < 63) ∧
    (48 ≤ (atRound 63 ivrom).ridx.toNat ∧ ¬ (atRound 63 ivrom).ridx.toNat < 63) := by decide

/-- `RoundEventRecordsTheRound`: one round of each family. -/
theorem witness_roundEvent :
    decode (fetchCode (atRound 15 ivrom)) = .ok (.rndF 15) ∧ decode (fetchCode (atRound 16 ivrom)) = .ok (.rndG 16) ∧
    decode (fetchCode (atRound 47 ivrom)) = .ok (.rndH 47) ∧ decode (fetchCode (atRound 48 ivrom)) = .ok (.rndI 48) ∧
    15 / 16 = 0 ∧ 16 / 16 = 1 ∧ 47 / 16 = 2 ∧ 48 / 16 = 3 := by decide

/-- `RoundOperationsFrame`. -/
theorem witness_roundFrame :
    (∃ t, exec (.rndF 3) (atRound 3 ivrom) = .next t) ∧ (∃ t, exec (.rndG 20) (atRound 20 ivrom) = .next t) ∧
    (∃ t, exec (.rndH 40) (atRound 40 ivrom) = .next t) ∧ (∃ t, exec (.rndI 63) (atRound 63 ivrom) = .next t) ∧
    0 ≠ 1 + (atRound 3 ivrom).evn := by
  exact ⟨⟨_, rfl⟩, ⟨_, rfl⟩, ⟨_, rfl⟩, ⟨_, rfl⟩, by decide⟩

/-- `ControlOperationsFrame`, `EveryOperationEmitsOnce`. -/
theorem witness_controlFrame :
    (∃ t, exec .pre atPre = .next t ∧ t.plen ≤ 64) ∧ (∃ t, exec .cst atCst = .next t) ∧
    (∃ t, exec .cen (atCen 0 1) = .next t) ∧ (∃ t, exec .don atDon = .next t) ∧ (∃ t, exec .hlt atDon = .next t) ∧
    Instr.pre ≠ .hlt ∧ 0 ≠ atCst.evn := by
  exact ⟨⟨_, rfl, by decide⟩, ⟨_, rfl⟩, ⟨_, rfl⟩, ⟨_, rfl⟩, ⟨_, rfl⟩, by decide, by decide⟩

/-- `EveryOperationEmitsOnce`, `RegistersHaveOnlyTheirWriters`: each host command answers a next state. -/
theorem witness_hostCommands :
    (∃ t, hostExec anyParams (.launch [7]) State.reset = .next t) ∧
    (∃ t, hostExec anyParams (.launchText (codePoints "zz") 1) State.reset = .next t) ∧
    (∃ t, hostExec anyParams (.launchText (codePoints "61") 1) State.reset = .next t) ∧
    (∃ t, hostExec anyParams .reset atCst = .next t) := by
  exact ⟨⟨_, rfl⟩, ⟨_, rfl⟩, ⟨_, rfl⟩, ⟨_, rfl⟩⟩

/-- `RegistersHaveOnlyTheirWriters`: an operation that changes `H`, one that changes `M`, `DIGEST`, `W`. -/
theorem witness_writers :
    after (exec .cen (atCen 0 1)) (fun t => decide (t.h = (atCen 0 1).h)) = some false ∧
    after (exec .cst atCst) (fun t => (decide (t.m = atCst.m), decide (t.w = atCst.w))) = some (false, false) ∧
    after (exec .don atDon) (fun t => decide (t.digest = atDon.digest)) = some false ∧
    after (exec (.rndF 0) (atRound 0 ivrom)) (fun t => decide (t.w = ivrom)) = some false := by decide

/-- `ControlTransferTable`: a next state of the sequencer in every row. -/
theorem witness_controlTransfer :
    after (engineStep State.reset) position = some (.idle, 0, 0) ∧ after (engineStep atPre) position = some (.cst, 0, 0) ∧
    after (engineStep atCst) position = some (.rnd, 0, 0) ∧
    after (engineStep (atRound 62 ivrom)) position = some (.rnd, 0, 63) ∧
    after (engineStep (atRound 63 ivrom)) position = some (.cen, 0, 0) := by decide

/-- `ControlTransferTable`, the other rows. -/
theorem witness_controlTransfer_end :
    after (engineStep (atCen 0 2)) position = some (.cst, 1, 0) ∧
    after (engineStep (atCen 1 2)) position = some (.don, 0, 0) ∧ after (engineStep atDon) position = some (.halt, 0, 0) ∧
    after (engineStep { atDon with ph := .halt }) position = some (.halt, 0, 0) := by decide

/-- `DataNeverInfluencesControl`: two states that differ in their registers. -/
theorem witness_sameControl :
    let s := atRound 63 ivrom
    let s' := atRound 63 ⟨1, 2, 3, 4⟩
    s ≠ s' ∧ s.ph = s'.ph ∧ s.cidx = s'.cidx ∧ s.ridx = s'.ridx ∧ s.nchunk = s'.nchunk ∧
    (after (engineStep s) position).isSome = true ∧ (after (engineStep s') position).isSome = true := by decide

/-- `OnlyMissingElementsStopAnOperation`: a message byte that is missing, a chunk byte that is missing, and the stops. -/
theorem witness_stops :
    (∃ k, k < ({ atPre with mlen := 4 } : State).mlen ∧ Cells.read ({ atPre with mlen := 4 } : State).msg k = none) ∧
    (∃ k, k < 64 ∧ Cells.read ({ atCst with cidx := 1 } : State).pmsg (64 * 1 + k) = none) ∧
    (∀ t, exec .pre { atPre with mlen := 4 } ≠ .next t) ∧ (∀ t, exec .cst { atCst with cidx := 1 } ≠ .next t) := by
  refine ⟨⟨3, by decide, by decide⟩, ⟨0, by decide, by decide⟩, fun t h => ?_, fun t h => ?_⟩
  · have : exec .pre { atPre with mlen := 4 } = .fault (.absentElement .msg) := rfl
    rw [this] at h
    cases h
  · have : exec .cst { atCst with cidx := 1 } = .fault (.absentElement .pmsg) := rfl
    rw [this] at h
    cases h

/-- `OperationsIgnorePhaseAndCodeIndex`. -/
theorem witness_notHlt : Instr.pre ≠ .hlt ∧ Instr.rndI 63 ≠ .hlt := by decide

/-- `BooleanFunctionsBitByBit`, `LeftRotate`, `RegistersHoldTheLastFourValues`, `MacroIsTheProgram`: the ends of the ranges. -/
theorem witness_ranges :
    (0 : Nat) < 32 ∧ (31 : Nat) < 32 ∧ (1 : Nat) ≤ 1 ∧ (1 : Nat) ≤ 31 ∧ (31 : Nat) ≤ 31 ∧ (3 : Nat) ≤ 3 ∧ (3 : Nat) ≤ 64 := by
  decide

/-- `PaddingLayout` (an index between marker and suffix, and two messages), `SplitCoversTheMessage`. -/
theorem witness_padding :
    (([] : List Byte).length < 1 ∧ 1 < (pad []).length - 8 ∧ 55 < (pad []).length - 8) ∧ (pad []).length = 64 ∧
    ([0x61] : List Byte).length < 2 ^ 61 ∧ pad [0x61] = pad [0x61] ∧ (pad [0x61]).length % 64 = 0 ∧
    ([] : List Byte).length % 64 = 0 ∧ (chunkSlice (pad [0x61]) 0, decodeBlock (chunkSlice (pad [0x61]) 0)) ∈ split (pad [0x61]) := by
  decide

/-- `RecordLengthsAndReservedTags`: the ends of the reserved tags. -/
theorem witness_reservedTags : 5 ≤ (0x05 : Byte).toNat ∧ 5 ≤ (0xFF : Byte).toNat ∧ parseRecord [0x05] = none := by decide

/-- `RecordRoundTrip`: a Preprocess record at the bounds of its fields, and a Done record. -/
theorem witness_fits :
    (Event.preprocess
      { origBytes := 2 ^ 64 - 1, origBits := 0, paddedBytes := 2 ^ 64 - 1, paddedBits := 0, bytesAdded := 255,
        chunkCount := 2 ^ 64 - 1, initDigest := fmt ivrom }).fits = true ∧
    (Event.done { hash := ivrom, digest := fmt ivrom }).fits = true := by decide

/-- `TextModeIsUtf8`: each clause at both ends of its range, with the bytes of UTF-8. -/
theorem witness_utf8 :
    isScalar 0xD7FF = true ∧ isScalar 0xD800 = false ∧ isScalar 0xDFFF = false ∧ isScalar 0xE000 = true ∧
    isScalar 0x10FFFF = true ∧ isScalar 0x110000 = false ∧
    utf8Char 0x00 = [0x00] ∧ utf8Char 0x7F = [0x7F] ∧ utf8Char 0x80 = [0xC2, 0x80] ∧ utf8Char 0x7FF = [0xDF, 0xBF] ∧
    utf8Char 0x800 = [0xE0, 0xA0, 0x80] ∧ utf8Char 0xFFFF = [0xEF, 0xBF, 0xBF] ∧
    utf8Char 0x10000 = [0xF0, 0x90, 0x80, 0x80] ∧ utf8Char 0x10FFFF = [0xF4, 0x8F, 0xBF, 0xBF] := by decide

/-- `HexModeAcceptance` (whitespace alone), `HexModeDecoding`. -/
theorem witness_hex :
    (∀ u ∈ [0x20, 0x09, 0x0D], isWhitespace anyParams u = true) ∧
    normalizeText anyParams (codePoints "0f F0") .hex = .ok [0x0F, 0xF0] := by decide

/-- `LaunchStartsOrIsRefused`: the preconditions met with bounded capacities, met at `HALT`, and each one failing. -/
theorem witness_launch :
    (State.reset.ph = .idle ∧ ({ atDon with ph := .halt } : State).ph = .halt) ∧
    withinCap (some 3) 3 = true ∧ withinCap (some 68) (eventsNeeded 3) = true ∧
    ¬ (atPre.ph = .idle ∨ atPre.ph = .halt) ∧ ¬ (3 ≤ 2) ∧ ¬ (2 + 66 * ((3 + 8) / 64 + 1) ≤ 67) := by decide

/-- `InvalidHexInputEntry`, `LaunchTextNormalizesThenLaunches`: each clause. -/
theorem witness_launchText :
    normalizeText anyParams (codePoints "zz") .hex = .error .invalidHexInput ∧
    (∀ u ∈ codePoints "abc", isScalar u = true) ∧ normalizeText anyParams (codePoints "61") .hex = .ok [0x61] ∧
    (∃ u ∈ [0xD800], isScalar u = false) ∧ 2 ≤ 2 ∧ busy atPre = true := by decide

/-- `StatusBits`: a state with `ERR` set that meets the invariant; bit 3 and bit 31. -/
theorem witness_err :
    Inv (takeException .invalidHexInput State.reset) ∧ (takeException .invalidHexInput State.reset).err = true ∧ 3 ≤ 31 :=
  ⟨takeException_inv _ _, rfl, by decide⟩

/-- `ReadsBeforeDoneAreLimited`: reads that succeed while BUSY and in `IDLE`. -/
theorem witness_readsBeforeDone :
    (busy atPre = true ∧ hostRead (.register 6) atPre = .ok (.count 3)) ∧
    (State.reset.ph = .idle ∧ hostRead (.register 12) State.reset = .ok (.word 0x10325476) ∧
      hostRead (.ivrom 3) State.reset = .ok (.word 0x10325476)) := by decide

/-- A state late in the run on the empty message, with the events `es`. -/
def late (ph : Phase) (es : List Event) : State :=
  { State.reset with
    ph := ph, plen := 64, nchunk := 1, pmsg := Cells.writeSeq [] 0 (pad []), trace := Cells.writeSeq [] 0 es,
    evn := es.length, digest := fmt ivrom }

/-- The Done event of `late` states. -/
def lateDone : Event := .done { hash := ivrom, digest := fmt ivrom }

/-- The parts of the invariant that `late` states share. -/
theorem late_readSeq (ph : Phase) (es : List Event) (b : List Byte) (h : readMessage (late ph es) = some b) :
    Cells.readSeq (late ph es).pmsg 0 (late ph es).plen = some (pad b) := by
  obtain ⟨hl, -⟩ := (readMessage_eq_some _ _).mp h
  obtain rfl := List.length_eq_zero_iff.mp hl
  exact Cells.readSeq_writeSeq [] 0 (pad [])

/-- `WrittenEventsNeverChange`, `EveryStepKeepsTheInvariant`: the invariant at DON with 67 events. -/
theorem witness_inv_don : Inv (late .don (List.replicate 67 lateDone)) where
  canonical := ⟨Cells.wf_nil, Cells.wf_writeSeq _ _ _ Cells.wf_nil, Cells.wf_writeSeq _ _ _ Cells.wf_nil⟩
  msgRange := Cells.covers_nil
  pmsgRange := Cells.covers_writeSeq_nil (pad [])
  traceRange := Cells.covers_writeSeq_nil _
  geometry := by decide
  padding := fun _ b h => late_readSeq _ _ b h
  chunkIndex := by decide
  roundIndex := fun _ => rfl
  events := by decide
  untouched := fun _ => rfl
  idle := by decide
  buffer := by decide
  finished := by decide

/-- `ReadsAfterDone`: the invariant at HALT. -/
theorem witness_inv_halt : Inv (late .halt (List.replicate 68 lateDone)) where
  canonical := ⟨Cells.wf_nil, Cells.wf_writeSeq _ _ _ Cells.wf_nil, Cells.wf_writeSeq _ _ _ Cells.wf_nil⟩
  msgRange := Cells.covers_nil
  pmsgRange := Cells.covers_writeSeq_nil (pad [])
  traceRange := Cells.covers_writeSeq_nil _
  geometry := by decide
  padding := fun _ b h => late_readSeq _ _ b h
  chunkIndex := by decide
  roundIndex := fun _ => rfl
  events := by decide
  untouched := fun _ => rfl
  idle := by decide
  buffer := by decide
  finished := by
    intro _
    refine ⟨rfl, ?_⟩
    show Cells.read (Cells.writeSeq [] 0 (List.replicate 68 lateDone)) 67 = some lateDone
    rw [Cells.read_writeSeq]
    rfl

/-- `ReadsAfterDone`: its bounds, on both sides of each. -/
theorem witness_halt :
    let s := late .halt (List.replicate 68 lateDone)
    s.ph = .halt ∧ (15 : Nat) < 16 ∧ (34 : Nat) ≤ 34 ∧ 2 < ({ s with mlen := 3 } : State).mlen ∧ s.mlen ≤ 0 ∧ 63 < s.plen ∧
    s.plen ≤ 64 ∧ 67 < s.evn ∧ s.evn ≤ 68 ∧ (0 < s.nchunk ∧ 63 < 64) ∧ ¬ (1 < s.nchunk ∧ 0 < 64) ∧ ¬ (0 < s.nchunk ∧ 64 < 64) ∧
    ¬ (0 < s.nchunk ∧ 16 < 16) := by decide

/-- `WrittenEventsNeverChange`: a step of the sequencer with events written. -/
theorem witness_writtenEvents :
    (∀ c rest, (late .don (List.replicate 67 lateDone)).moves ≠ .host c :: rest) ∧
    (∃ t, step (late .don (List.replicate 67 lateDone)) = .next t) ∧ 66 < (late .don (List.replicate 67 lateDone)).evn := by
  refine ⟨fun c rest h => ?_, ⟨_, rfl⟩, by decide⟩
  cases h

/-- `EveryStepKeepsTheInvariant`: a step of the sequencer and one of the host. -/
theorem witness_invStep :
    (Inv atPre ∧ ∃ t, step atPre = .next t) ∧
    (Inv (launched [] { State.reset with moves := [.host .reset] }) ∧
      ∃ t, step (launched [] { State.reset with moves := [.host .reset] }) = .next t) :=
  ⟨⟨launched_inv _ _, _, rfl⟩, launched_inv _ _, _, rfl⟩

/-- `EngineNeverFails`, `EveryRunReachesHalt`. -/
theorem witness_busy : Inv atPre ∧ atPre.moves = [] ∧ busy atPre = true := ⟨launched_inv _ _, rfl, rfl⟩

/-- `RunComputesTheDigest`, `RunLeavesTheMessagesTrace`, `RunExecutesTheProgram`, `TraceValueOfARun`: a message and the empty one;
the indices at the ends of a run. -/
theorem witness_run :
    (LaunchPremises [0x61, 0x62, 0x63] atPre ∧ atPre.moves = []) ∧
    (LaunchPremises [] (launched [] State.reset) ∧ (launched [] State.reset).moves = []) ∧
    0 < runLength [] ∧ 67 < runLength [] ∧ runLength [] ≤ 68 :=
  ⟨⟨launched_premises _ _, rfl⟩, ⟨launched_premises _ _, rfl⟩, by decide⟩

/-- `RunsAreIndependentOfThePast`: the same message launched from reset and from a finished run. -/
theorem witness_independence :
    State.reset.moves = [] ∧ ({ atDon with ph := .halt } : State).moves = [] ∧
    (∃ t, hostExec anyParams (.launch [7]) State.reset = .next t) ∧
    (∃ t, hostExec { anyParams with maxLen := some 1 } (.launch [7]) { atDon with ph := .halt } = .next t) :=
  ⟨rfl, rfl, ⟨_, rfl⟩, ⟨_, rfl⟩⟩

end Sys2Proof.Tests
end

section
/-! One move of the system (00_scope.md R9): whose move it is, and which operation the sequencer runs. -/

namespace Sys2Proof.Machine

/-- With no move scheduled, the sequencer moves. -/
theorem step_of_moves_nil {s : State} (h : s.moves = []) : step s = engineStep s := by
  unfold step stepWith
  rw [h]

/-- A scheduled move of the sequencer uses up its entry. -/
theorem step_of_moves_sequencer {s : State} {rest : List Move} (h : s.moves = .sequencer :: rest) :
    step s = engineStep { s with moves := rest } := by
  unfold step stepWith
  rw [h]

/-- A scheduled host command uses up its entry. -/
theorem step_of_moves_host {s : State} {c : HostCommand} {rest : List Move} (h : s.moves = .host c :: rest) :
    step s = hostExec Config.params c { s with moves := rest } := by
  unfold step stepWith
  rw [h]

/-- The schedule is no part of the sequencer's position. -/
@[simp] theorem fetchCode_withMoves (s : State) (rest : List Move) : fetchCode { s with moves := rest } = fetchCode s := rfl

/-- The sequencer runs the operation that its step code decodes to. -/
theorem engineStep_of_decode {s : State} {i : Instr} (h : decode (fetchCode s) = .ok i) : engineStep s = exec i s := by
  unfold engineStep
  rw [h]

/-- Settles O6: the three cases of the schedule. The entry that a scheduled sequencer move uses up does not change the
position. -/
theorem stepRunsTheDecodedOperation : Obligations.StepRunsTheDecodedOperation := by
  intro s i
  refine ⟨fun hmoves hdec => ?_, fun rest hmoves hdec => ?_, fun c rest hmoves => step_of_moves_host hmoves⟩
  · exact (step_of_moves_nil hmoves).trans (engineStep_of_decode hdec)
  · rw [step_of_moves_sequencer hmoves]
    exact engineStep_of_decode ((fetchCode_withMoves s rest).symm ▸ hdec)

end Sys2Proof.Machine
end

section
/-! What an operation does and what it leaves unchanged (10_state.md R27): the inversion of `exec`, said once, and the frames that
follow from it. -/

namespace Sys2Proof.Machine

/-- The family whose round an operation runs; `none` for a control operation (30_encoding.md R62). -/
def roundFamily : Instr → Option Family
  | .rndF _ => some .F
  | .rndG _ => some .G
  | .rndH _ => some .H
  | .rndI _ => some .I
  | .pre => none
  | .cst => none
  | .cen => none
  | .don => none
  | .hlt => none

/-- An operation with a family is one of the four round operations. -/
theorem eq_rnd_of_roundFamily {i : Instr} {fam : Family} (h : roundFamily i = some fam) :
    ∃ k, i = .rndF k ∨ i = .rndG k ∨ i = .rndH k ∨ i = .rndI k := by
  cases i with
  | rndF k => exact ⟨k, .inl rfl⟩
  | rndG k => exact ⟨k, .inr (.inl rfl)⟩
  | rndH k => exact ⟨k, .inr (.inr (.inl rfl))⟩
  | rndI k => exact ⟨k, .inr (.inr (.inr rfl))⟩
  | pre => cases h
  | cst => cases h
  | cen => cases h
  | don => cases h
  | hlt => cases h

/-- A round operation is no control operation. -/
theorem ne_of_roundFamily {i j : Instr} {fam : Family} (hi : roundFamily i = some fam) (hj : roundFamily j = none) : i ≠ j := by
  rintro rfl
  cases hi.symm.trans hj

/-- `Effect i s t`: operation `i` takes state `s` to the next state `t`. Its constructors are the ways in which an operation
answers a next state, with what it has read. -/
inductive Effect : Instr → State → State → Prop
  | pre {s : State} {b : List Byte} (hb : readMessage s = some b) :
    Effect .pre s (setPc .cst 0 0 (emit (.preprocess (preprocessEvent s (pad b))) (padInto b s)))
  | cst {s : State} {words : Block} (hwords : chunkBlock s.pmsg s.cidx = some words) :
    Effect .cst s (setPc .rnd s.cidx 0 (emit (.chunkStart (chunkStartEvent s words)) { s with m := words, w := s.h }))
  | round {s : State} {i : Instr} {fam : Family} (hi : roundFamily i = some fam) :
    Effect i s (nextRound (emit (.round (roundEvent s (familyRound fam s.ridx s.w s.m)))
      { s with w := (familyRound fam s.ridx s.w s.m).regs }))
  | cen {s : State} :
    Effect .cen s (nextChunk (emit (.chunkEnd (chunkEndEvent s (foldQuad s.h s.w))) { s with h := foldQuad s.h s.w }))
  | don {s : State} :
    Effect .don s (setPc .halt 0 0 (emit (.done { hash := s.h, digest := fmt s.h }) { s with digest := fmt s.h }))
  | hlt {s : State} : Effect .hlt s s

/-- The inversion of `exec`: whatever it answers as a next state is the operation's effect. -/
theorem effect_of_exec {i : Instr} {s t : State} (h : exec i s = .next t) : Effect i s t := by
  cases i with
  | pre =>
    rcases execPre_cases s with ⟨b, hb, hnext⟩ | ⟨-, hfault⟩
    · cases hnext.symm.trans h
      exact .pre hb
    · cases hfault.symm.trans h
  | cst =>
    rcases execCst_cases s with ⟨words, hwords, hnext⟩ | ⟨-, hfault⟩
    · cases hnext.symm.trans h
      exact .cst hwords
    · cases hfault.symm.trans h
  | cen => cases (execCen_eq s).symm.trans h; exact .cen
  | don => cases (execDon_eq s).symm.trans h; exact .don
  | hlt => cases (execHlt_eq s).symm.trans h; exact .hlt
  | rndF k => cases (roundStep_eq .F s).symm.trans h; exact .round rfl
  | rndG k => cases (roundStep_eq .G s).symm.trans h; exact .round rfl
  | rndH k => cases (roundStep_eq .H s).symm.trans h; exact .round rfl
  | rndI k => cases (roundStep_eq .I s).symm.trans h; exact .round rfl

/-- What the operations other than HLT have in common: one event in slot `EVN` (44_trace_recorder.md R152), and the message, `ERR`
and the model's own fields as before. -/
structure Emits (s t : State) : Prop where
  evn : t.evn = s.evn + 1
  trace : ∃ e, t.trace = Cells.write s.trace s.evn e
  msg : t.msg = s.msg
  mlen : t.mlen = s.mlen
  err : t.err = s.err
  moves : t.moves = s.moves
  freeEpoch : t.freeEpoch = s.freeEpoch

/-- What the operations other than PRE have in common: the padded message and its geometry as before. -/
structure KeepsPadding (s t : State) : Prop where
  pmsg : t.pmsg = s.pmsg
  plen : t.plen = s.plen
  nchunk : t.nchunk = s.nchunk

/-- Every slot but the one at the old `EVN` reads as before. -/
theorem Emits.read_trace {s t : State} (h : Emits s t) {n : Nat} (hn : n ≠ s.evn) :
    Cells.read t.trace n = Cells.read s.trace n := by
  obtain ⟨e, he⟩ := h.trace
  rw [he, Cells.read_write_other _ _ hn]

theorem Emits.read_msg {s t : State} (h : Emits s t) (a : Nat) : Cells.read t.msg a = Cells.read s.msg a := by rw [h.msg]

theorem KeepsPadding.read_pmsg {s t : State} (h : KeepsPadding s t) (a : Nat) : Cells.read t.pmsg a = Cells.read s.pmsg a := by
  rw [h.pmsg]

/-! ### One lemma per part of the state and the operations that leave it unchanged -/

section
variable {i : Instr} {s t : State}

theorem Effect.emits (h : Effect i s t) (hi : i ≠ .hlt) : Emits s t := by
  cases h with
  | pre hb => exact ⟨rfl, ⟨_, rfl⟩, rfl, rfl, rfl, rfl, rfl⟩
  | cst hwords => exact ⟨rfl, ⟨_, rfl⟩, rfl, rfl, rfl, rfl, rfl⟩
  | round hfam => exact ⟨nextRound_evn _, ⟨_, nextRound_trace _⟩, by simp, by simp, by simp, by simp, by simp⟩
  | cen => exact ⟨nextChunk_evn _, ⟨_, nextChunk_trace _⟩, by simp, by simp, by simp, by simp, by simp⟩
  | don => exact ⟨rfl, ⟨_, rfl⟩, rfl, rfl, rfl, rfl, rfl⟩
  | hlt => exact absurd rfl hi

theorem Effect.keepsPadding (h : Effect i s t) (hi : i ≠ .pre) : KeepsPadding s t := by
  cases h with
  | pre hb => exact absurd rfl hi
  | cst hwords => exact ⟨rfl, rfl, rfl⟩
  | round hfam => exact ⟨nextRound_pmsg _, nextRound_plen _, nextRound_nchunk _⟩
  | cen => exact ⟨nextChunk_pmsg _, nextChunk_plen _, nextChunk_nchunk _⟩
  | don => exact ⟨rfl, rfl, rfl⟩
  | hlt => exact ⟨rfl, rfl, rfl⟩

/-- `H` (10_state.md R11). -/
theorem Effect.h_eq (h : Effect i s t) (hi : i ≠ .cen) : t.h = s.h := by
  cases h with
  | cen => exact absurd rfl hi
  | round hfam => exact nextRound_h _
  | pre hb => rfl
  | cst hwords => rfl
  | don => rfl
  | hlt => rfl

/-- `W` (R12). -/
theorem Effect.w_eq (h : Effect i s t) (hi : i ≠ .cst) (hr : roundFamily i = none) : t.w = s.w := by
  cases h with
  | cst hwords => exact absurd rfl hi
  | round hfam => cases hfam.symm.trans hr
  | cen => exact nextChunk_w _
  | pre hb => rfl
  | don => rfl
  | hlt => rfl

/-- `M` (R13). -/
theorem Effect.m_eq (h : Effect i s t) (hi : i ≠ .cst) : t.m = s.m := by
  cases h with
  | cst hwords => exact absurd rfl hi
  | round hfam => exact nextRound_m _
  | cen => exact nextChunk_m _
  | pre hb => rfl
  | don => rfl
  | hlt => rfl

/-- `DIGEST` (R19). -/
theorem Effect.digest_eq (h : Effect i s t) (hi : i ≠ .don) : t.digest = s.digest := by
  cases h with
  | don => exact absurd rfl hi
  | round hfam => exact nextRound_digest _
  | cen => exact nextChunk_digest _
  | pre hb => rfl
  | cst hwords => rfl
  | hlt => rfl

/-- `ERR` (R17): no operation sets or clears it. -/
theorem Effect.err_eq (h : Effect i s t) : t.err = s.err := by
  by_cases hi : i = .hlt
  · subst hi
    cases h with
    | round hfam => cases hfam
    | hlt => rfl
  · exact (h.emits hi).err

end

/-- A round operation stays in its chunk. -/
theorem Effect.round_cidx_eq {i : Instr} {s t : State} {fam : Family} (h : Effect i s t) (hi : roundFamily i = some fam) :
    t.cidx = s.cidx := by
  cases h with
  | round hfam => exact nextRound_cidx _
  | pre hb => cases hi
  | cst hwords => cases hi
  | cen => cases hi
  | don => cases hi
  | hlt => cases hi

/-- CST stays in its chunk. -/
theorem Effect.cst_cidx_eq {s t : State} (h : Effect .cst s t) : t.cidx = s.cidx := by
  cases h with
  | cst hwords => rfl
  | round hfam => cases hfam

/-- PRE writes no index of `PMSG` at or above the new `PLEN`. -/
theorem Effect.pre_read_pmsg {s t : State} (h : Effect .pre s t) {a : Nat} (ha : t.plen ≤ a) :
    Cells.read t.pmsg a = Cells.read s.pmsg a := by
  cases h with
  | @pre _ b hb =>
    have hlen : (pad b).length ≤ a := ha
    show Cells.read (Cells.writeSeq s.pmsg 0 (pad b)) a = _
    rw [Cells.read_writeSeq, if_neg (by omega)]
  | round hfam => cases hfam

/-- Settles O18: a round operation is neither HLT, PRE, CEN, CST nor DON, so each of the frames above applies to it. -/
theorem roundOperationsFrame : Obligations.RoundOperationsFrame := by
  intro s t k hexec
  obtain ⟨i, fam, hi, h⟩ : ∃ i fam, roundFamily i = some fam ∧ exec i s = .next t := by
    rcases hexec with h | h | h | h
    · exact ⟨.rndF k, .F, rfl, h⟩
    · exact ⟨.rndG k, .G, rfl, h⟩
    · exact ⟨.rndH k, .H, rfl, h⟩
    · exact ⟨.rndI k, .I, rfl, h⟩
  have heff := effect_of_exec h
  have hne {j : Instr} (hj : roundFamily j = none) : i ≠ j := ne_of_roundFamily hi hj
  have hemit := heff.emits (hne rfl)
  have hpad := heff.keepsPadding (hne rfl)
  exact ⟨heff.h_eq (hne rfl), heff.m_eq (hne rfl), heff.round_cidx_eq hi, hemit.mlen, hpad.plen, hpad.nchunk, hemit.err,
    heff.digest_eq (hne rfl), hemit.moves, hemit.freeEpoch, hemit.read_msg, hpad.read_pmsg,
    fun _ => hemit.read_trace⟩

/-- Settles O19, each operation by the frames above; only PRE's `PMSG` needs a bound on the index. -/
theorem controlOperationsFrame : Obligations.ControlOperationsFrame := by
  refine ⟨fun s t h => ?pre, fun s t h => ?cst, fun s t h => ?cen, fun s t h => ?don, fun s t h => ?hlt⟩
  case pre =>
    have heff := effect_of_exec h
    have hemit := heff.emits nofun
    exact ⟨heff.h_eq nofun, heff.w_eq nofun rfl, heff.m_eq nofun, hemit.mlen, hemit.err, heff.digest_eq nofun, hemit.moves,
      hemit.freeEpoch, hemit.read_msg, fun _ => heff.pre_read_pmsg, fun _ => hemit.read_trace⟩
  case cst =>
    have heff := effect_of_exec h
    have hemit := heff.emits nofun
    have hpad := heff.keepsPadding nofun
    exact ⟨heff.h_eq nofun, heff.cst_cidx_eq, hemit.mlen, hpad.plen, hpad.nchunk, hemit.err, heff.digest_eq nofun, hemit.moves,
      hemit.freeEpoch, hemit.read_msg, hpad.read_pmsg, fun _ => hemit.read_trace⟩
  case cen =>
    have heff := effect_of_exec h
    have hemit := heff.emits nofun
    have hpad := heff.keepsPadding nofun
    exact ⟨heff.w_eq nofun rfl, heff.m_eq nofun, hemit.mlen, hpad.plen, hpad.nchunk, hemit.err, heff.digest_eq nofun, hemit.moves,
      hemit.freeEpoch, hemit.read_msg, hpad.read_pmsg, fun _ => hemit.read_trace⟩
  case don =>
    have heff := effect_of_exec h
    have hemit := heff.emits nofun
    have hpad := heff.keepsPadding nofun
    exact ⟨heff.h_eq nofun, heff.w_eq nofun rfl, heff.m_eq nofun, hemit.mlen, hpad.plen, hpad.nchunk, hemit.err, hemit.moves,
      hemit.freeEpoch, hemit.read_msg, hpad.read_pmsg, fun _ => hemit.read_trace⟩
  case hlt => exact (Host.Outcome.next.inj ((execHlt_eq s).symm.trans h)).symm

/-- A host command that answers a next state leaves `H` at the initial HashState (R191, R200, R202). -/
theorem hostExec_h {p : Params} {c : HostCommand} {s t : State} (h : hostExec p c s = .next t) : t.h = ivrom := by
  rcases hostExec_next p c s t h with ⟨-, b, -, -, rfl⟩ | ⟨-, e, rfl⟩ | ⟨-, rfl⟩
  · exact launched_h b s
  · exact takeException_h e s
  · exact idleState_h s

/-- Settles O21: each clause is the contrapositive of the register's frame. -/
theorem registersHaveOnlyTheirWriters : Obligations.RegistersHaveOnlyTheirWriters := by
  refine ⟨fun i s t h => ?_, fun p c s t h => hostExec_h h⟩
  have heff := effect_of_exec h
  refine ⟨not_imp_comm.mp heff.h_eq, not_imp_comm.mp heff.m_eq, not_imp_comm.mp heff.digest_eq, fun hw => ?_⟩
  cases hr : roundFamily i with
  | none => exact .inl (of_not_not fun hi => hw (heff.w_eq hi hr))
  | some fam => exact .inr (eq_rnd_of_roundFamily hr)

end Sys2Proof.Machine
end

section
/-! The status word (10_state.md R17). -/

namespace Sys2Proof.Machine

theorem busy_iff (s : State) : busy s = true ↔ s.ph = .pre ∨ s.ph = .cst ∨ s.ph = .rnd ∨ s.ph = .cen ∨ s.ph = .don := by
  unfold busy
  cases s.ph <;> decide

theorem done_iff (s : State) : done s = true ↔ s.ph = .halt := by
  unfold done
  cases s.ph <;> decide

/-- `BUSY` and `DONE` are never both 1. -/
theorem not_busy_and_done (s : State) : ¬ (busy s = true ∧ done s = true) := by
  rw [done_iff]
  rintro ⟨hbusy, hhalt⟩
  simp [busy, hhalt] at hbusy

/-- `BUSY` and `DONE` are both 0 in `IDLE` and nowhere else. -/
theorem idle_iff (s : State) : busy s = false ∧ done s = false ↔ s.ph = .idle := by
  unfold busy done
  cases s.ph <;> decide

theorem status_toNat (s : State) : (status s).toNat = (busy s).toNat + 2 * (done s).toNat + 4 * s.err.toNat := by
  have hb := Bool.toNat_le (busy s)
  have hd := Bool.toNat_le (done s)
  have he := Bool.toNat_le s.err
  exact Nat.mod_eq_of_lt (by omega)

/-- Bits 0 to 2 are `BUSY`, `DONE` and `ERR`. -/
theorem status_low_bits (s : State) :
    (status s).getLsbD 0 = busy s ∧ (status s).getLsbD 1 = done s ∧ (status s).getLsbD 2 = s.err := by
  unfold status
  generalize busy s = b, done s = d, s.err = e
  revert b d e
  decide

/-- Bits 31:3 are 0: the value is below 8. -/
theorem status_high_bits (s : State) {k : Nat} (hk : 3 ≤ k) : (status s).getLsbD k = false := by
  have hb := Bool.toNat_le (busy s)
  have hd := Bool.toNat_le (done s)
  have he := Bool.toNat_le s.err
  refine Nat.testBit_lt_two_pow (lt_of_lt_of_le ?_ (Nat.pow_le_pow_right two_pos hk))
  rw [status_toNat]
  omega

/-- Settles O48: the bits one by one, and `ERR` by the invariant and the frame of the operations. -/
theorem statusBits : Obligations.StatusBits := by
  intro s
  obtain ⟨hbusy, hdone, herr⟩ := status_low_bits s
  rw [hbusy, hdone]
  refine ⟨busy_iff s, done_iff s, herr, fun k => status_high_bits s, not_busy_and_done s, idle_iff s, fun hinv herr => ?_,
    fun i t h => (effect_of_exec h).err_eq⟩
  have hidle := hinv.idle.1 herr
  exact ⟨hidle, by rw [hinv.events, eventCount, hidle]⟩

end Sys2Proof.Machine
end

section
/-! The invariant: the state after reset meets it, and every step keeps it. The operations from CST to DON share the argument for
the memories and the geometry (`Inv.advance`); each adds its own position, event count and registers. -/

namespace Sys2Proof.Machine

/-- Settles O47: the fields that R26 gives, and HLT by the phase. -/
theorem stateAfterReset : Obligations.StateAfterReset :=
  ⟨rfl, rfl, rfl, rfl, rfl, rfl, rfl, rfl, rfl, rfl, rfl, rfl, rfl, decode_fetchCode State.reset⟩

/-- Settles O51: the memories are empty and the phase is `IDLE`. -/
theorem invariantHoldsAfterReset : Obligations.InvariantHoldsAfterReset where
  canonical := reset_memories_wf
  msgRange := Cells.covers_nil
  pmsgRange := Cells.covers_nil
  traceRange := Cells.covers_nil
  geometry := ⟨rfl, rfl⟩
  padding := nofun
  chunkIndex := rfl
  roundIndex := fun _ => rfl
  events := rfl
  untouched := fun _ => rfl
  idle := ⟨nofun, fun _ => rfl⟩
  buffer := nofun
  finished := nofun

/-- A run of writes from the end of the covered range extends it by the run's length. -/
theorem Cells.Covers.writeSeq_next {α : Type} {m : Cells α} {n : Nat} (h : Cells.Covers m n) (vs : List α) :
    Cells.Covers (Cells.writeSeq m n vs) (n + vs.length) := by
  induction vs generalizing m n with
  | nil => exact h
  | cons v vs ih =>
    rw [List.length_cons, Nat.add_comm vs.length, ← Nat.add_assoc]
    exact ih (h.write_next v)

/-- The schedule is no part of the invariant. -/
theorem Inv.withMoves {s : State} (h : Inv s) (rest : List Move) : Inv { s with moves := rest } where
  canonical := h.canonical
  msgRange := h.msgRange
  pmsgRange := h.pmsgRange
  traceRange := h.traceRange
  geometry := h.geometry
  padding := h.padding
  chunkIndex := h.chunkIndex
  roundIndex := h.roundIndex
  events := h.events
  untouched := h.untouched
  idle := h.idle
  buffer := h.buffer
  finished := h.finished

/-- `ERR` is 0 outside `IDLE` (10_state.md R17). -/
theorem Inv.err_eq_false {s : State} (h : Inv s) (hph : s.ph ≠ .idle) : s.err = false :=
  Bool.eq_false_iff.mpr fun herr => hph (h.idle.1 herr)

section
variable {s t : State}

/-- An event in the next slot keeps `TRACE` canonical. -/
theorem Emits.trace_wf (he : Emits s t) (h : Inv s) : Cells.wf t.trace := by
  obtain ⟨e, htrace⟩ := he.trace
  obtain ⟨-, -, hwf⟩ := h.canonical
  exact htrace ▸ Cells.wf_write _ _ e hwf

/-- An event in the next slot leaves exactly the slots below the new `EVN` filled. -/
theorem Emits.trace_covers (he : Emits s t) (h : Inv s) : Cells.Covers t.trace t.evn := by
  obtain ⟨e, htrace⟩ := he.trace
  rw [htrace, he.evn]
  exact h.traceRange.write_next e

theorem Emits.readMessage_eq (he : Emits s t) : readMessage t = readMessage s := by
  unfold readMessage
  rw [he.msg, he.mlen]

/-- The status rule holds after an operation that leaves `IDLE` alone. -/
theorem Emits.idle_rule (he : Emits s t) (h : Inv s) (hs : s.ph ≠ .idle) (ht : t.ph ≠ .idle) :
    (t.err = true → t.ph = .idle) ∧ (t.ph = .idle → t.mlen = 0) := by
  have herr : t.err = false := he.err.trans (h.err_eq_false hs)
  exact ⟨fun ht' => by simp [herr] at ht', fun ht' => absurd ht' ht⟩

/-- PRE has run in no state of phase `IDLE`. -/
theorem ne_idle_of_padded (h : padded s = true) : s.ph ≠ .idle := by
  intro hidle
  simp [padded, hidle] at h

/-- A step within the part of a run that follows PRE keeps the invariant, if its new position, event count and registers are
right. -/
theorem Inv.advance (h : Inv s) (he : Emits s t) (hk : KeepsPadding s t) (hs : padded s = true) (ht : padded t = true)
    (chunkIndex : if inChunk t then t.cidx < t.nchunk else t.cidx = 0) (roundIndex : t.ph ≠ .rnd → t.ridx = 0)
    (events : s.evn + 1 = eventCount t) (buffer : t.ph = .rnd ∨ t.ph = .cen → chunkBlock t.pmsg t.cidx = some t.m)
    (finished : t.ph = .halt →
      t.digest = fmt t.h ∧ Cells.read t.trace (t.evn - 1) = some (.done { hash := t.h, digest := t.digest })) : Inv t where
  canonical := by
    obtain ⟨hmsg, hpmsg, -⟩ := h.canonical
    exact ⟨he.msg ▸ hmsg, hk.pmsg ▸ hpmsg, he.trace_wf h⟩
  msgRange := by rw [he.msg, he.mlen]; exact h.msgRange
  pmsgRange := by rw [hk.pmsg, hk.plen]; exact h.pmsgRange
  traceRange := he.trace_covers h
  geometry := by rw [hk.plen, hk.nchunk, he.mlen, ht.trans hs.symm]; exact h.geometry
  padding := by
    rw [he.readMessage_eq, hk.pmsg, hk.plen]
    exact fun _ => h.padding hs
  chunkIndex := chunkIndex
  roundIndex := roundIndex
  events := he.evn.trans events
  untouched := fun hf => by simp [ht] at hf
  idle := he.idle_rule h (ne_idle_of_padded hs) (ne_idle_of_padded ht)
  buffer := buffer
  finished := finished

/-- PRE fills `PMSG` with the padded message and goes to chunk 0; before it there is nothing in `PMSG`. -/
theorem Inv.after_pre (h : Inv s) (hph : s.ph = .pre) (heff : Effect .pre s t) : Inv t := by
  have he : Emits s t := heff.emits nofun
  have hplen : s.plen = 0 := by
    obtain ⟨hlen, hcount⟩ := h.geometry
    simpa [padded, hph, hcount] using hlen
  cases heff with
  | round hfam => cases hfam
  | @pre _ b hb =>
    obtain ⟨hlen, -⟩ := (readMessage_eq_some s b).mp hb
    obtain ⟨hmsg, hpmsg, -⟩ := h.canonical
    exact {
      canonical := ⟨hmsg, Cells.wf_writeSeq _ _ _ hpmsg, he.trace_wf h⟩
      msgRange := h.msgRange
      pmsgRange := by
        have := (hplen ▸ h.pmsgRange).writeSeq_next (pad b)
        simpa using this
      traceRange := he.trace_covers h
      geometry := ⟨by simp [pad_length], by simp [padded, pad_length_div, hlen]⟩
      padding := by
        intro _ b' hb'
        obtain rfl : b = b' := Option.some.inj (hb.symm.trans (he.readMessage_eq.symm.trans hb'))
        exact Cells.readSeq_writeSeq s.pmsg 0 (pad b)
      chunkIndex := by simp [inChunk, pad_length_div, chunkCountOf]
      roundIndex := fun _ => rfl
      events := by simp [h.events, eventCount, hph]
      untouched := nofun
      idle := he.idle_rule h (by simp [hph]) nofun
      buffer := nofun
      finished := nofun }

/-- CST loads the words of the chunk into `M`. -/
theorem Inv.after_cst (h : Inv s) (hph : s.ph = .cst) (heff : Effect .cst s t) : Inv t := by
  have he : Emits s t := heff.emits nofun
  have hk : KeepsPadding s t := heff.keepsPadding nofun
  have hcidx : s.cidx < s.nchunk := by simpa [inChunk, hph] using h.chunkIndex
  cases heff with
  | round hfam => cases hfam
  | cst hwords =>
    refine h.advance he hk (by simp [padded, hph]) rfl (by simpa [inChunk] using hcidx) nofun ?_ (fun _ => hwords) nofun
    simp [h.events, eventCount, hph]

/-- A round leaves the chunk and its words alone and goes to the next round, or after round 63 to the end of the chunk. -/
theorem Inv.after_round (h : Inv s) (hph : s.ph = .rnd) {i : Instr} {fam : Family} (hi : roundFamily i = some fam)
    (heff : Effect i s t) : Inv t := by
  have he : Emits s t := heff.emits (ne_of_roundFamily hi rfl)
  have hk : KeepsPadding s t := heff.keepsPadding (ne_of_roundFamily hi rfl)
  have hcidx : s.cidx < s.nchunk := by simpa [inChunk, hph] using h.chunkIndex
  have hbuffer : chunkBlock t.pmsg t.cidx = some t.m := by
    rw [hk.pmsg, heff.round_cidx_eq hi, heff.m_eq (ne_of_roundFamily hi rfl)]
    exact h.buffer (.inl hph)
  cases heff with
  | pre hb => cases hi
  | cst hwords => cases hi
  | cen => cases hi
  | don => cases hi
  | hlt => cases hi
  | round hfam =>
    by_cases hmore : s.ridx.toNat < 63
    · refine h.advance he hk (by simp [padded, hph]) (by simp [padded, hmore]) (by simpa [inChunk, hmore] using hcidx)
        (by simp [hmore]) ?_ (fun _ => hbuffer) (by simp [hmore])
      have hnext : (s.ridx.toNat + 1) % 64 = s.ridx.toNat + 1 := by omega
      simp +arith [h.events, eventCount, hph, hmore, hnext]
    · refine h.advance he hk (by simp [padded, hph]) (by simp [padded, hmore]) (by simpa [inChunk, hmore] using hcidx)
        (by simp [hmore]) ?_ (fun _ => hbuffer) (by simp [hmore])
      have h63 : s.ridx.toNat = 63 := by omega
      simp +arith [h.events, eventCount, hph, h63]

/-- CEN goes to the next chunk, or after the last one to DON. -/
theorem Inv.after_cen (h : Inv s) (hph : s.ph = .cen) (heff : Effect .cen s t) : Inv t := by
  have he : Emits s t := heff.emits nofun
  have hk : KeepsPadding s t := heff.keepsPadding nofun
  have hcidx : s.cidx < s.nchunk := by simpa [inChunk, hph] using h.chunkIndex
  cases heff with
  | round hfam => cases hfam
  | cen =>
    by_cases hmore : s.cidx + 1 < s.nchunk
    · refine h.advance he hk (by simp [padded, hph]) (by simp [padded, hmore]) (by simp [inChunk, hmore]) (by simp) ?_
        (by simp [hmore]) (by simp [hmore])
      simp +arith [h.events, eventCount, hph, hmore]
    · refine h.advance he hk (by simp [padded, hph]) (by simp [padded, hmore]) (by simp [inChunk, hmore]) (by simp) ?_
        (by simp [hmore]) (by simp [hmore])
      have hlast : s.nchunk = s.cidx + 1 := by omega
      simp +arith [h.events, eventCount, hph, hlast]

/-- DON formats `H` into `DIGEST` and records both in the last slot. -/
theorem Inv.after_don (h : Inv s) (hph : s.ph = .don) (heff : Effect .don s t) : Inv t := by
  have he : Emits s t := heff.emits nofun
  have hk : KeepsPadding s t := heff.keepsPadding nofun
  cases heff with
  | round hfam => cases hfam
  | don =>
    refine h.advance he hk (by simp [padded, hph]) rfl rfl (fun _ => rfl) ?_ nofun
      (fun _ => ⟨rfl, Cells.read_write_self s.trace s.evn _⟩)
    simp +arith [h.events, eventCount, hph]

end

/-- The round operation of a round index runs the family that owns the index. -/
theorem roundFamily_rndInstr (i : BitVec 6) : roundFamily (rndInstr i) = some (familyOf i) := by
  unfold rndInstr
  cases familyOf i <;> rfl

/-- Every move of the sequencer keeps the invariant. -/
theorem Inv.after_engineStep {s t : State} (h : Inv s) (hstep : engineStep s = .next t) : Inv t := by
  rw [engineStep_eq] at hstep
  cases hph : s.ph with rw [hph] at hstep
  | idle => cases hstep; exact h
  | pre => exact h.after_pre hph (effect_of_exec hstep)
  | cst => exact h.after_cst hph (effect_of_exec hstep)
  | rnd => exact h.after_round hph (roundFamily_rndInstr s.ridx) (effect_of_exec ((exec_rndInstr s.ridx s).trans hstep))
  | cen => exact h.after_cen hph (effect_of_exec hstep)
  | don => exact h.after_don hph (effect_of_exec hstep)
  | halt => cases hstep; exact h

/-- Every host command that answers a next state establishes the invariant. -/
theorem inv_of_hostExec {p : Params} {c : HostCommand} {s t : State} (h : hostExec p c s = .next t) : Inv t := by
  rcases hostExec_next p c s t h with ⟨-, b, -, -, rfl⟩ | ⟨-, e, rfl⟩ | ⟨-, rfl⟩
  · exact launched_inv b s
  · exact takeException_inv e s
  · exact idleState_inv s

/-- Settles O52: by whose move it is; a move of the sequencer by the phase. -/
theorem everyStepKeepsTheInvariant : Obligations.EveryStepKeepsTheInvariant := by
  intro s t h hstep
  cases hmoves : s.moves with
  | nil => exact h.after_engineStep ((step_of_moves_nil hmoves).symm.trans hstep)
  | cons move rest =>
    cases move with
    | sequencer => exact (h.withMoves rest).after_engineStep ((step_of_moves_sequencer hmoves).symm.trans hstep)
    | host c => exact inv_of_hostExec ((step_of_moves_host hmoves).symm.trans hstep)

end Sys2Proof.Machine
end

section
/-! The index spaces (20_memory.md): when an operation stops for an element that does not exist, and that the events already written
stay as they are. -/

namespace Sys2Proof.Machine

/-- PRE stops exactly when the message cannot be read. -/
theorem exec_pre_fault_iff (s : State) : exec .pre s = .fault (.absentElement .msg) ↔ readMessage s = none := by
  rcases execPre_cases s with ⟨b, hb, hnext⟩ | ⟨hnone, hfault⟩
  · refine iff_of_false (fun h => ?_) (by simp [hb])
    cases hnext.symm.trans h
  · exact iff_of_true hfault hnone

/-- CST stops exactly when chunk `CIDX` cannot be read. -/
theorem exec_cst_fault_iff (s : State) :
    exec .cst s = .fault (.absentElement .pmsg) ↔ chunkBlock s.pmsg s.cidx = none := by
  rcases execCst_cases s with ⟨words, hwords, hnext⟩ | ⟨hnone, hfault⟩
  · refine iff_of_false (fun h => ?_) (by simp [hwords])
    cases hnext.symm.trans h
  · exact iff_of_true hfault hnone

/-- The message cannot be read exactly when one of its `MLEN` bytes does not exist (R41). -/
theorem readMessage_eq_none (s : State) : readMessage s = none ↔ ∃ k, k < s.mlen ∧ Cells.read s.msg k = none := by
  simpa [readMessage] using Cells.readSeq_eq_none s.msg 0 s.mlen

/-- Every operation answers a next state, except that PRE and CST may stop for an absent byte. -/
theorem exec_next_or_fault (i : Instr) (s : State) :
    (∃ t, exec i s = .next t) ∨
    (i = .pre ∧ exec i s = .fault (.absentElement .msg)) ∨ (i = .cst ∧ exec i s = .fault (.absentElement .pmsg)) := by
  cases i with
  | pre =>
    rcases execPre_cases s with ⟨b, -, hnext⟩ | ⟨-, hfault⟩
    · exact .inl ⟨_, hnext⟩
    · exact .inr (.inl ⟨rfl, hfault⟩)
  | cst =>
    rcases execCst_cases s with ⟨words, -, hnext⟩ | ⟨-, hfault⟩
    · exact .inl ⟨_, hnext⟩
    · exact .inr (.inr ⟨rfl, hfault⟩)
  | cen => exact .inl ⟨_, execCen_eq s⟩
  | don => exact .inl ⟨_, execDon_eq s⟩
  | hlt => exact .inl ⟨_, execHlt_eq s⟩
  | rndF k => exact .inl ⟨_, roundStep_eq .F s⟩
  | rndG k => exact .inl ⟨_, roundStep_eq .G s⟩
  | rndH k => exact .inl ⟨_, roundStep_eq .H s⟩
  | rndI k => exact .inl ⟨_, roundStep_eq .I s⟩

/-- Settles O24: PRE reads the message and CST a chunk, each a run of bytes; every other operation answers a next state. -/
theorem onlyMissingElementsStopAnOperation : Obligations.OnlyMissingElementsStopAnOperation := by
  refine fun s => ⟨?pre, ?cst, fun i hstop => ?others⟩
  case pre => exact (exec_pre_fault_iff s).trans (readMessage_eq_none s)
  case cst => exact (exec_cst_fault_iff s).trans ((chunkBlock_eq_none _ _).trans (Cells.readSeq_eq_none _ _ _))
  case others =>
    rcases exec_next_or_fault i s with ⟨t, hnext⟩ | hfault
    · exact absurd hnext (hstop t)
    · exact hfault

/-- A move that is not the host's is the sequencer's, and uses up its entry of the schedule if it has one. -/
theorem step_of_moves_ne_host {s : State} (h : ∀ c rest, s.moves ≠ .host c :: rest) :
    step s = engineStep { s with moves := s.moves.tail } := by
  cases hmoves : s.moves with
  | nil => rw [step_of_moves_nil hmoves, List.tail_nil, ← hmoves]
  | cons move rest =>
    cases move with
    | sequencer => exact step_of_moves_sequencer hmoves
    | host c => exact absurd hmoves (h c rest)

/-- A move of the sequencer that answers a next state is the effect of some operation. -/
theorem effect_of_engineStep {s t : State} (h : engineStep s = .next t) : ∃ i, Effect i s t := by
  cases hdec : decode (fetchCode s) with
  | ok i => exact ⟨i, effect_of_exec ((engineStep_of_decode hdec).symm.trans h)⟩
  | error e =>
    unfold engineStep at h
    rw [hdec] at h
    cases h

/-- No operation changes a slot of `TRACE` other than the one at `EVN`. -/
theorem Effect.read_trace {i : Instr} {s t : State} (h : Effect i s t) {n : Nat} (hn : n ≠ s.evn) :
    Cells.read t.trace n = Cells.read s.trace n := by
  by_cases hi : i = .hlt
  · subst hi
    cases h with
    | round hfam => cases hfam
    | hlt => rfl
  · exact (h.emits hi).read_trace hn

/-- Settles O53: by the invariant the slots below `EVN` are filled, and an operation writes only the slot at `EVN`. -/
theorem writtenEventsNeverChange : Obligations.WrittenEventsNeverChange := by
  intro s t hinv hmoves hstep n hn
  obtain ⟨e, he⟩ := Option.isSome_iff_exists.mp ((hinv.traceRange n).mpr hn)
  obtain ⟨i, heff⟩ := effect_of_engineStep ((step_of_moves_ne_host hmoves).symm.trans hstep)
  exact ⟨e, he, (heff.read_trace hn.ne).trans he⟩

end Sys2Proof.Machine
end

section
/-! The step code (30_encoding.md R60 to R63): a step code is a control code, a reserved code or the code of a round; the decoder and
the encoder invert each other; each position of the sequencer has its operation. -/

namespace Sys2Proof.Machine

/-! ### Round codes and the operations that own them -/

theorem roundCode_toNat (i : BitVec 6) : (roundCode i).toNat = 0x40 + i.toNat := by
  revert i
  decide

/-- The step code of phase `RND` is the code of the round `RIDX` (R60). -/
theorem stepCode_rnd (i : BitVec 6) : stepCode .rnd i = roundCode i := by
  revert i
  decide

/-- A family owns exactly the round indices that select it (R61). -/
theorem owns_iff (fam : Family) (i : BitVec 6) : fam.owns i = true ↔ familyOf i = fam := by
  revert i
  cases fam <;> decide

/-- The operation that runs a round, by the ranges of R62. -/
theorem rndInstr_of_range (i : BitVec 6) :
    (i.toNat ≤ 15 → rndInstr i = .rndF i) ∧ (16 ≤ i.toNat → i.toNat ≤ 31 → rndInstr i = .rndG i) ∧
    (32 ≤ i.toNat → i.toNat ≤ 47 → rndInstr i = .rndH i) ∧ (48 ≤ i.toNat → rndInstr i = .rndI i) := by
  revert i
  decide

theorem rndInstr_wellFormed (i : BitVec 6) : (rndInstr i).WellFormed := by
  unfold rndInstr
  cases hfam : familyOf i <;> exact (owns_iff _ i).mpr hfam

@[simp] theorem encode_rndInstr (i : BitVec 6) : encode (rndInstr i) = roundCode i := by
  unfold rndInstr
  cases familyOf i <;> rfl

/-- R62 on round codes: the decoder's answer at the position `RND`. -/
theorem decode_roundCode (i : BitVec 6) : decode (roundCode i) = .ok (rndInstr i) :=
  stepCode_rnd i ▸ decode_fetchCode { State.reset with ph := .rnd, ridx := i }

/-- A well-formed operation is a control operation or the operation that runs its round. -/
theorem wellFormed_cases {i : Instr} (h : i.WellFormed) :
    i = .pre ∨ i = .cst ∨ i = .cen ∨ i = .don ∨ i = .hlt ∨ ∃ k, i = rndInstr k := by
  have owned {fam : Family} {k : BitVec 6} (hk : fam.owns k = true) : familyOf k = fam := (owns_iff fam k).mp hk
  cases i with
  | rndF k => exact .inr (.inr (.inr (.inr (.inr ⟨k, by rw [rndInstr, owned (fam := .F) h]⟩))))
  | rndG k => exact .inr (.inr (.inr (.inr (.inr ⟨k, by rw [rndInstr, owned (fam := .G) h]⟩))))
  | rndH k => exact .inr (.inr (.inr (.inr (.inr ⟨k, by rw [rndInstr, owned (fam := .H) h]⟩))))
  | rndI k => exact .inr (.inr (.inr (.inr (.inr ⟨k, by rw [rndInstr, owned (fam := .I) h]⟩))))
  | pre => simp
  | cst => simp
  | cen => simp
  | don => simp
  | hlt => simp

/-! ### Decoder and encoder -/

/-- Settles O1: by `wellFormed_cases`; the decoder's answer on the code of a round is the operation that runs the round. -/
theorem decodeOfEncodeIsTheInstruction : Obligations.DecodeOfEncodeIsTheInstruction := by
  intro i h
  rcases wellFormed_cases h with rfl | rfl | rfl | rfl | rfl | ⟨k, rfl⟩
  · decide
  · decide
  · decide
  · decide
  · decide
  · rw [encode_rndInstr, decode_roundCode]

/-- Every step code is reserved or the code of a well-formed operation (R62, R63). -/
theorem stepCode_cases (sc : StepCode) :
    (∃ i : Instr, i.WellFormed ∧ sc = encode i) ∨ (0x05 ≤ sc.toNat ∧ sc.toNat ≤ 0x3F) := by
  have control : ∀ sc : StepCode, sc.toNat < 0x05 →
      sc = encode .pre ∨ sc = encode .cst ∨ sc = encode .cen ∨ sc = encode .don ∨ sc = encode .hlt := by decide
  by_cases hround : 0x40 ≤ sc.toNat
  · refine .inl ⟨rndInstr (BitVec.ofNat 6 (sc.toNat - 0x40)), rndInstr_wellFormed _, BitVec.eq_of_toNat_eq ?_⟩
    have := sc.isLt
    rw [encode_rndInstr, roundCode_toNat, BitVec.toNat_ofNat]
    omega
  · by_cases hres : 0x05 ≤ sc.toNat
    · exact .inr ⟨hres, by omega⟩
    · rcases control sc (by omega) with h | h | h | h | h
      · exact .inl ⟨.pre, rfl, h⟩
      · exact .inl ⟨.cst, rfl, h⟩
      · exact .inl ⟨.cen, rfl, h⟩
      · exact .inl ⟨.don, rfl, h⟩
      · exact .inl ⟨.hlt, rfl, h⟩

/-- A reserved step code is selected by no row and is refused by name (R63). -/
theorem decode_reserved : ∀ sc : StepCode, 0x05 ≤ sc.toNat → sc.toNat ≤ 0x3F → decode sc = .error (.reservedStepCode sc) := by
  decide

/-- The operation that the decoder answers is well formed and has the given step code. -/
theorem wellFormed_of_decode {sc : StepCode} {i : Instr} (h : decode sc = .ok i) : i.WellFormed ∧ encode i = sc := by
  rcases stepCode_cases sc with ⟨j, hj, rfl⟩ | ⟨hlo, hhi⟩
  · cases (decodeOfEncodeIsTheInstruction j hj).symm.trans h
    exact ⟨hj, rfl⟩
  · cases (decode_reserved sc hlo hhi).symm.trans h

/-- The family OwnRow, for all nine operations. -/
theorem ownRow (i : Instr) : Laws.OwnRow.Statement i := by
  cases i with
  | pre => exact Laws.OwnRow.pre
  | cst => exact Laws.OwnRow.cst
  | cen => exact Laws.OwnRow.cen
  | don => exact Laws.OwnRow.don
  | hlt => exact Laws.OwnRow.hlt
  | rndF k => exact Laws.OwnRow.rndF k
  | rndG k => exact Laws.OwnRow.rndG k
  | rndH k => exact Laws.OwnRow.rndH k
  | rndI k => exact Laws.OwnRow.rndI k

/-- The row of a well-formed operation is in the opcode map and selects the operation's step code (R62). -/
theorem row_selects_encode {i : Instr} (h : i.WellFormed) : i.row ∈ opcodeMap ∧ i.row.selects (encode i) = true := by
  have hrow : i.row ∈ opcodeMap.filter fun r => r.selects (encode i) := by
    rw [ownRow i h]
    exact List.mem_singleton_self _
  exact List.mem_filter.mp hrow

/-- Settles O2: the code is the operation's own, and the operation's own row selects it. -/
theorem encodeOfDecodeIsTheStepCode : Obligations.EncodeOfDecodeIsTheStepCode := by
  intro sc i h
  obtain ⟨hwf, rfl⟩ := wellFormed_of_decode h
  obtain ⟨hmem, hsel⟩ := row_selects_encode hwf
  exact ⟨hwf, rfl, hmem, beq_iff_eq.mp hsel⟩

/-! ### The sequencer -/

/-- The sequencer selects a step code that the decoder accepts. -/
theorem decode_fetchCode_ok (s : State) : ∃ i, decode (fetchCode s) = .ok i := by
  rw [decode_fetchCode]
  cases s.ph <;> exact ⟨_, rfl⟩

/-- Settles O3: a code that is not reserved has an operation, and so has every code that the sequencer selects. -/
theorem reservedStepCodesAreRefused : Obligations.ReservedStepCodesAreRefused := by
  refine ⟨fun sc => ⟨fun herr => ?_, fun ⟨hlo, hhi⟩ => decode_reserved sc hlo hhi⟩, by decide, fun s ⟨hlo, hhi⟩ => ?_⟩
  · rcases stepCode_cases sc with ⟨i, hi, rfl⟩ | hres
    · cases (decodeOfEncodeIsTheInstruction i hi).symm.trans herr
    · exact hres
  · obtain ⟨i, hi⟩ := decode_fetchCode_ok s
    cases (decode_reserved _ hlo hhi).symm.trans hi

/-- Settles O4: the nine words, each by evaluating the decoder. -/
theorem sampleStepCodesDecode : Obligations.SampleStepCodesDecode := by
  refine ⟨?_, ?_, ?_, ?_, ?_, ?_, ?_, ?_, ?_⟩ <;> decide

/-- In phase `RND` the sequencer selects the code of the round `RIDX` (R60). -/
theorem fetchCode_of_rnd {s : State} (h : s.ph = .rnd) : fetchCode s = roundCode s.ridx := by
  rw [fetchCode, h, stepCode_rnd]

/-- Settles O5: each phase by the table of R60; in `RND` the operation is that of the round `RIDX`, by its range. -/
theorem sequencerPositionSelectsOperation : Obligations.SequencerPositionSelectsOperation := by
  intro s
  refine ⟨fun h => ?_, fun h => ?_, fun h => ?_, fun h => ?_, fun h => ?_, fun h => ?_, fun h => ?round⟩
  case round =>
    obtain ⟨hF, hG, hH, hI⟩ := rndInstr_of_range s.ridx
    rw [fetchCode_of_rnd h, decode_roundCode]
    exact ⟨roundCode_toNat _, fun hi => congrArg _ (hF hi), fun lo hi => congrArg _ (hG lo hi),
      fun lo hi => congrArg _ (hH lo hi), fun lo => congrArg _ (hI lo)⟩
  all_goals
    exact ⟨by rw [fetchCode, h]; rfl, by rw [decode_fetchCode, h]⟩

/-! ### Positioning (log entry 6) -/

/-- An 8-bit table word that is a step code is decoded as that step code. -/
theorem decodeTableWord_of_decode {sc : StepCode} {i : Instr} (h : decode sc = .ok i) :
    decodeTableWord 8 sc.toNat = some i := by
  have hlt := sc.isLt
  have hword : sc.toNat % 2 ^ 8 = sc.toNat := Nat.mod_eq_of_lt (by omega)
  unfold decodeTableWord
  simp only [hword, if_pos hlt, BitVec.ofNat_toNat, BitVec.setWidth_eq, h]

@[simp] theorem withChunk_moves (s : State) : (withChunk s).moves = s.moves := by
  unfold withChunk
  split <;> rfl

/-- HLT leaves the position of an engine that is not busy alone. -/
theorem positionAt_hlt (s : State) :
    positionAt .hlt s = if busy s then setPc .halt 0 0 { s with moves := [] } else { s with moves := [] } := rfl

/-- After positioning the sequencer moves. -/
theorem positionAt_moves (i : Instr) (s : State) : (positionAt i s).moves = [] := by
  cases i with
  | hlt =>
    rw [positionAt_hlt]
    split <;> rfl
  | cst => exact withChunk_moves _
  | pre => rfl
  | cen => rfl
  | don => rfl
  | rndF k => rfl
  | rndG k => rfl
  | rndH k => rfl
  | rndI k => rfl

/-- A state that is not busy is in `IDLE` or `HALT`, where the step code is HLT's. -/
theorem fetchCode_of_not_busy {s : State} (h : ¬ busy s = true) : fetchCode s = encode .hlt := by
  unfold fetchCode
  cases hph : s.ph with
  | idle => rfl
  | halt => rfl
  | pre => simp [busy, hph] at h
  | cst => simp [busy, hph] at h
  | rnd => simp [busy, hph] at h
  | cen => simp [busy, hph] at h
  | don => simp [busy, hph] at h

/-- Positioning puts the sequencer at the operation's step code. -/
theorem fetchCode_positionAt (i : Instr) (s : State) : fetchCode (positionAt i s) = encode i := by
  cases i with
  | hlt =>
    rw [positionAt_hlt]
    split
    · rfl
    case isFalse hbusy => exact fetchCode_of_not_busy hbusy
  | rndF k => exact stepCode_rnd k
  | rndG k => exact stepCode_rnd k
  | rndH k => exact stepCode_rnd k
  | rndI k => exact stepCode_rnd k
  | pre => rfl
  | cst => rfl
  | cen => rfl
  | don => rfl

/-- Settles O7: the table word decodes to `i`, and the state positioned at `i` runs what its step code decodes to. -/
theorem positionedWordIsTheNextStep : Obligations.PositionedWordIsTheNextStep := by
  intro i s hwf
  have hdec : decode (encode i) = .ok i := decodeOfEncodeIsTheInstruction i hwf
  have hword := decodeTableWord_of_decode hdec
  have hpos : s.withFetchWord 8 (encode i).toNat = positionAt i s := by rw [State.withFetchWord, hword]
  refine ⟨hword, ?_⟩
  rw [hpos, step_of_moves_nil (positionAt_moves i s)]
  exact engineStep_of_decode ((congrArg decode (fetchCode_positionAt i s)).trans hdec)

end Sys2Proof.Machine
end

section
/-! The program (30_encoding.md R64) and its listing (R75): the trace indices of a run, chunk by chunk, and the step code at each. -/

namespace Sys2Proof.Machine

/-- The first `k * n` numbers, `k` at a time. -/
theorem range_mul_eq_flatMap (k n : Nat) :
    List.range (k * n) = (List.range n).flatMap fun c => (List.range k).map (k * c + ·) := by
  induction n with
  | zero => rfl
  | succ n ih => rw [Nat.mul_succ, List.range_add, ih, List.range_succ, List.flatMap_append, List.flatMap_singleton]

/-- The trace indices of chunk `c` (44_trace_recorder.md R160). -/
def chunkIndices (c : Nat) : List Nat := (List.range 66).map fun r => 1 + (66 * c + r)

/-- The trace indices of a run: PRE, the chunks in order, DON (R160). -/
theorem range_run (n : Nat) :
    List.range (2 + 66 * n) = 0 :: (List.range n).flatMap chunkIndices ++ [1 + 66 * n] := by
  rw [show 2 + 66 * n = 1 + 66 * n + 1 by omega, List.range_succ, List.range_add, range_mul_eq_flatMap, List.map_flatMap]
  simp only [List.map_map]
  rfl

/-- The places within a chunk: CST, the 64 rounds, CEN. -/
theorem range_chunk : List.range 66 = 0 :: (List.range 64).map (1 + ·) ++ [65] := by decide

/-- A function of the trace index on the indices of a chunk, from its values at CST, the rounds and CEN. -/
theorem map_chunkIndices {α : Type} (f : Nat → α) (c : Nat) :
    (chunkIndices c).map f =
      f (1 + 66 * c) :: (List.range 64).map (fun i => f (1 + (66 * c + (1 + i)))) ++ [f (1 + (66 * c + 65))] := by
  rw [chunkIndices, range_chunk]
  simp [Function.comp_def]

/-! ### The step code at each trace index -/

theorem programCode_pre (n : Nat) : programCode n 0 = encode .pre := rfl

theorem programCode_don (n : Nat) : programCode n (1 + 66 * n) = encode .don := by
  simp [programCode, encode]

theorem programCode_cst {n c : Nat} (hc : c < n) : programCode n (1 + 66 * c) = encode .cst := by
  unfold programCode
  rw [if_neg (by omega), if_neg (by omega), if_pos (by omega)]
  rfl

theorem programCode_cen (n c : Nat) : programCode n (1 + (66 * c + 65)) = encode .cen := by
  unfold programCode
  rw [if_neg (by omega), if_neg (by omega), if_neg (by omega), if_pos (by omega)]
  rfl

theorem programCode_round (n c : Nat) {i : Nat} (hi : i < 64) :
    programCode n (1 + (66 * c + (1 + i))) = encode (rndInstr (BitVec.ofNat 6 i)) := by
  unfold programCode
  rw [if_neg (by omega), if_neg (by omega), if_neg (by omega), if_neg (by omega), encode_rndInstr, ← stepCode_rnd, stepCode,
    show (1 + (66 * c + (1 + i)) - 1) % 66 - 1 = i by omega, BitVec.toNat_ofNat, Nat.mod_eq_of_lt hi]

/-- The listing of a chunk is the program on the chunk's trace indices. -/
theorem map_encode_chunkMacro {n c : Nat} (hc : c < n) :
    (chunkMacro c).map (fun l => encode l.instr) = (chunkIndices c).map (programCode n) := by
  have rounds : (List.range 64).map (fun i => programCode n (1 + (66 * c + (1 + i)))) =
      (List.range 64).map fun i => encode (rndInstr (BitVec.ofNat 6 i)) :=
    List.map_congr_left fun i hi => programCode_round n c (List.mem_range.mp hi)
  rw [map_chunkIndices, rounds, programCode_cst hc, programCode_cen]
  simp [chunkMacro, Function.comp_def]

/-! ### The listing -/

theorem chunkMacro_length (c : Nat) : (chunkMacro c).length = 66 := by simp [chunkMacro]

theorem md5Macro_length (n : Nat) : (md5Macro n).length = 2 + 66 * n := by
  simp [md5Macro, List.length_flatMap, chunkMacro_length]
  omega

/-- The operation that runs round `i` is listed with operand `i`. -/
theorem round_entry_wellFormed {i : Nat} (hi : i < 64) :
    (ListingOp.mk (rndInstr (BitVec.ofNat 6 i)) (some i)).wellFormed = true := by
  have hop : (some i == some (BitVec.ofNat 6 i).toNat) = true := by simp [Nat.mod_eq_of_lt hi]
  have hown := rndInstr_wellFormed (BitVec.ofNat 6 i)
  unfold rndInstr at hown ⊢
  cases hfam : familyOf (BitVec.ofNat 6 i) <;> rw [hfam] at hown <;> exact Bool.and_eq_true_iff.mpr ⟨hown, hop⟩

theorem chunkMacro_wellFormed {c : Nat} {l : ListingOp} (h : l ∈ chunkMacro c) : l.wellFormed = true := by
  simp only [chunkMacro, List.cons_append, List.mem_cons, List.mem_append, List.mem_map, List.mem_range, List.not_mem_nil,
    or_false] at h
  rcases h with rfl | ⟨i, hi, rfl⟩ | rfl
  · rfl
  · exact round_entry_wellFormed hi
  · rfl

theorem md5Macro_wellFormed {n : Nat} {l : ListingOp} (h : l ∈ md5Macro n) : l.wellFormed = true := by
  simp only [md5Macro, List.cons_append, List.mem_cons, List.mem_append, List.mem_flatMap, List.not_mem_nil, or_false] at h
  rcases h with rfl | ⟨c, -, hl⟩ | rfl
  · rfl
  · exact chunkMacro_wellFormed hl
  · rfl

/-- Settles O60: the listing and the program agree on PRE, on each chunk and on DON. -/
theorem macroIsTheProgram : Obligations.MacroIsTheProgram := by
  refine fun n _ => ⟨md5Macro_length n, fun l => md5Macro_wellFormed, ?_⟩
  have chunks : (List.range n).flatMap (fun c => (chunkMacro c).map fun l => encode l.instr) =
      (List.range n).flatMap fun c => (chunkIndices c).map (programCode n) :=
    List.flatMap_congr fun c hc => map_encode_chunkMacro (List.mem_range.mp hc)
  rw [range_run]
  simp only [md5Macro, List.map_cons, List.map_append, List.map_flatMap, List.map_nil, chunks, programCode_pre, programCode_don]

end Sys2Proof.Machine
end

section
/-! Serialised records (30_encoding.md R66 to R71): their lengths, and what the reader finds at an offset of a record. A field is
read by peeling off the fields before it: the `*_append_right` lemmas skip a field, the others read the field at offset 0. -/

namespace Sys2Proof.Machine

/-! ### Lengths and tags -/

@[simp] theorem u8_length (n : Nat) : (u8 n).length = 1 := leBytes_length 1 n

@[simp] theorem u64_length (n : Nat) : (u64 n).length = 8 := leBytes_length 8 _

@[simp] theorem blockBytes_length (m : Block) : (blockBytes m).length = 64 := by
  simp [blockBytes, List.length_flatMap]

/-- A record has the length of its tag (R66). -/
theorem recordLength_tag (e : Event) : recordLength e.tag = some (serialize e).length := by
  cases e <;> simp [Event.tag, recordLength, serialize]

/-- A record begins with its tag (R66). -/
theorem serialize_head? (e : Event) : (serialize e).head? = some (BitVec.ofNat 8 e.tag) := by
  cases e <;> rfl

/-- Tags 5..255 are reserved (R66). -/
theorem recordLength_reserved {tag : Nat} (h : 5 ≤ tag) : recordLength tag = none := by
  match tag, h with
  | _ + 5, _ => rfl

/-! ### Fields at an offset -/

section
variable {xs ys : List Byte} {off : Nat}

@[simp] theorem fieldNat_append_right (h : xs.length ≤ off) (n : Nat) :
    fieldNat (xs ++ ys) off n = fieldNat ys (off - xs.length) n := by
  rw [fieldNat, List.drop_append, List.drop_of_length_le h, List.nil_append, fieldNat]

@[simp] theorem fieldWord_append_right (h : xs.length ≤ off) : fieldWord (xs ++ ys) off = fieldWord ys (off - xs.length) := by
  rw [fieldWord, fieldNat_append_right h, fieldWord]

@[simp] theorem fieldQuad_append_right (h : xs.length ≤ off) : fieldQuad (xs ++ ys) off = fieldQuad ys (off - xs.length) := by
  have skip (k : Nat) : fieldWord (xs ++ ys) (off + k) = fieldWord ys (off - xs.length + k) := by
    rw [fieldWord_append_right (by omega), Nat.sub_add_comm h]
  rw [fieldQuad, skip, skip, skip, fieldWord_append_right h, fieldQuad]

@[simp] theorem fieldBlock_append_right (h : xs.length ≤ off) : fieldBlock (xs ++ ys) off = fieldBlock ys (off - xs.length) := by
  have skip (k : Nat) : fieldWord (xs ++ ys) (off + k) = fieldWord ys (off - xs.length + k) := by
    rw [fieldWord_append_right (by omega), Nat.sub_add_comm h]
  simp only [fieldBlock, skip]

@[simp] theorem fieldStr32_append_right (h : xs.length ≤ off) : fieldStr32 (xs ++ ys) off = fieldStr32 ys (off - xs.length) := by
  have skip (k : Nat) : (xs ++ ys).getD (off + k) 0 = ys.getD (off - xs.length + k) 0 := by
    rw [List.getD_append_right _ _ _ _ (by omega), Nat.sub_add_comm h]
  simp only [fieldStr32, skip]

end

theorem fieldNat_leBytes_append (n v : Nat) (ys : List Byte) : fieldNat (leBytes n v ++ ys) 0 n = v % 256 ^ n := by
  rw [fieldNat, List.drop_zero, List.take_left' (leBytes_length n v), leValue_leBytes]

theorem fieldNat_u8_append {v : Nat} (h : v < 256) (ys : List Byte) : fieldNat (u8 v ++ ys) 0 1 = v :=
  (fieldNat_leBytes_append 1 v ys).trans (Nat.mod_eq_of_lt h)

theorem fieldNat_u64_append {v : Nat} (h : v < 2 ^ 64) (ys : List Byte) : fieldNat (u64 v ++ ys) 0 8 = v := by
  rw [u64, fieldNat_leBytes_append, Nat.mod_eq_of_lt h]
  exact Nat.mod_eq_of_lt h

@[simp] theorem fieldWord_wordBytes_append (w : Word) (ys : List Byte) : fieldWord (wordBytes w ++ ys) 0 = w := by
  have hmod : w.toNat % 256 ^ 4 = w.toNat := Nat.mod_eq_of_lt w.isLt
  rw [fieldWord, wordBytes, fieldNat_leBytes_append, hmod, BitVec.ofNat_toNat, BitVec.setWidth_eq]

@[simp] theorem fieldQuad_quadBytes_append (q : Quad) (ys : List Byte) : fieldQuad (quadBytes q ++ ys) 0 = q := by
  simp [fieldQuad, quadBytes]

@[simp] theorem fieldQuad_quadBytes (q : Quad) : fieldQuad (quadBytes q) 0 = q := by
  simpa using fieldQuad_quadBytes_append q []

/-- Word `j` of a run of words lies at offset `4 * j`. -/
theorem fieldWord_flatMap_wordBytes (ws : List Word) (ys : List Byte) {j : Nat} (h : j < ws.length) :
    fieldWord (ws.flatMap wordBytes ++ ys) (4 * j) = ws[j] := by
  induction ws generalizing j with
  | nil => cases h
  | cons w ws ih =>
    rw [List.flatMap_cons, List.append_assoc]
    cases j with
    | zero => exact fieldWord_wordBytes_append w _
    | succ j =>
      rw [fieldWord_append_right (by rw [wordBytes_length]; omega), wordBytes_length, Nat.mul_succ, Nat.add_sub_cancel]
      exact ih (Nat.lt_of_succ_lt_succ h)

@[simp] theorem fieldBlock_blockBytes_append (m : Block) (ys : List Byte) : fieldBlock (blockBytes m ++ ys) 0 = m := by
  refine Vector.ext fun j hj => ?_
  simp [fieldBlock, blockBytes, fieldWord_flatMap_wordBytes]

@[simp] theorem fieldStr32_toList (s : Str32) : fieldStr32 s.toList 0 = s := by
  refine Vector.ext fun k hk => ?_
  simp [fieldStr32]

/-! ### The reader -/

@[simp] theorem familyOfCode_familyCode (fam : Family) : familyOfCode (familyCode fam) = some fam := by
  cases fam <;> rfl

theorem familyCode_lt (fam : Family) : familyCode fam < 256 := by
  cases fam <;> decide

theorem parsePreprocess_serialize {r : PreprocessRec} (h : (Event.preprocess r).fits = true) :
    parsePreprocess (serialize (.preprocess r)) = r := by
  simp only [Event.fits, Bool.and_eq_true, decide_eq_true_eq] at h
  obtain ⟨⟨⟨⟨⟨hob, hoB⟩, hpb⟩, hpB⟩, hadd⟩, hcount⟩ := h
  simp [parsePreprocess, serialize, fieldNat_u64_append hob, fieldNat_u64_append hoB, fieldNat_u64_append hpb,
    fieldNat_u64_append hpB, fieldNat_u8_append hadd, fieldNat_u64_append hcount]

theorem parseChunkStart_serialize {r : ChunkStartRec} (h : (Event.chunkStart r).fits = true) :
    parseChunkStart (serialize (.chunkStart r)) = r := by
  have hchunk : r.chunk < 2 ^ 64 := of_decide_eq_true h
  simp [parseChunkStart, serialize, fieldNat_u64_append hchunk]

theorem parseRound_serialize {r : RoundRec} (h : (Event.round r).fits = true) :
    parseRound (serialize (.round r)) = some r := by
  simp only [Event.fits, Bool.and_eq_true, decide_eq_true_eq] at h
  obtain ⟨hchunk, hstep⟩ := h
  have hround := r.round.isLt
  have hg := r.g.isLt
  have hshift := r.shift.isLt
  simp [parseRound, serialize, fieldNat_u64_append hchunk, fieldNat_u8_append hstep, fieldNat_u8_append (familyCode_lt r.fam),
    fieldNat_u8_append (hround.trans (by decide)), fieldNat_u8_append (hg.trans (by decide)),
    fieldNat_u8_append (hshift.trans (by decide)), hround, hg, hshift]

theorem parseChunkEnd_serialize {r : ChunkEndRec} (h : (Event.chunkEnd r).fits = true) :
    parseChunkEnd (serialize (.chunkEnd r)) = r := by
  have hchunk : r.chunk < 2 ^ 64 := of_decide_eq_true h
  simp [parseChunkEnd, serialize, fieldNat_u64_append hchunk]

theorem parseDone_serialize (r : DoneRec) : parseDone (serialize (.done r)) = r := by
  simp [parseDone, serialize]

/-- The event that the fields of a record of tag `tag` give. -/
def readFields (tag : Nat) (bs : List Byte) : Option Event :=
  match tag with
  | 0 => some (.preprocess (parsePreprocess bs))
  | 1 => some (.chunkStart (parseChunkStart bs))
  | 2 => (parseRound bs).map .round
  | 3 => some (.chunkEnd (parseChunkEnd bs))
  | 4 => some (.done (parseDone bs))
  | _ => none

/-- The reader checks the length that the tag determines, and then reads the fields. -/
theorem parseRecord_cons (tag : Byte) (rest : List Byte) :
    parseRecord (tag :: rest) =
      if recordLength tag.toNat = some (tag :: rest).length then readFields tag.toNat (tag :: rest) else none := rfl

/-- On the bytes of a record the reader reads the fields of the record's own tag. -/
theorem parseRecord_serialize (e : Event) : parseRecord (serialize e) = readFields e.tag (serialize e) := by
  have hlen := recordLength_tag e
  have htag : (BitVec.ofNat 8 e.tag).toNat = e.tag := by cases e <;> rfl
  obtain ⟨rest, hbytes⟩ := List.head?_eq_some_iff.mp (serialize_head? e)
  rw [hbytes] at hlen ⊢
  rw [parseRecord_cons, htag, if_pos hlen]

/-- Settles O39: each record by the layout of its fields. -/
theorem recordRoundTrip : Obligations.RecordRoundTrip := by
  intro e h
  rw [parseRecord_serialize]
  cases e with
  | preprocess r => rw [Event.tag, readFields, parsePreprocess_serialize h]
  | chunkStart r => rw [Event.tag, readFields, parseChunkStart_serialize h]
  | round r => rw [Event.tag, readFields, parseRound_serialize h, Option.map_some]
  | chunkEnd r => rw [Event.tag, readFields, parseChunkEnd_serialize h]
  | done r => rw [Event.tag, readFields, parseDone_serialize r]

/-! ### The length of a run's trace (R73) -/

theorem serialize_length_of_tag {e : Event} {len : Nat} (h : recordLength e.tag = some len) : (serialize e).length = len :=
  Option.some.inj ((recordLength_tag e).symm.trans h)

section
variable (b : List Byte)

theorem messageEvent_tag_pre : (messageEvent b 0).tag = 0 := rfl

theorem messageEvent_tag_don : (messageEvent b (1 + 66 * chunkCountOf b.length)).tag = 4 := by
  unfold messageEvent
  rw [if_neg (by omega), if_pos rfl]
  rfl

theorem messageEvent_tag_cst {c : Nat} (hc : c < chunkCountOf b.length) : (messageEvent b (1 + 66 * c)).tag = 1 := by
  unfold messageEvent
  rw [if_neg (by omega), if_neg (by omega), if_pos (by omega)]
  rfl

theorem messageEvent_tag_cen (c : Nat) : (messageEvent b (1 + (66 * c + 65))).tag = 3 := by
  unfold messageEvent
  rw [if_neg (by omega), if_neg (by omega), if_neg (by omega), if_pos (by omega)]
  rfl

theorem messageEvent_tag_round (c : Nat) {i : Nat} (hi : i < 64) : (messageEvent b (1 + (66 * c + (1 + i)))).tag = 2 := by
  unfold messageEvent
  rw [if_neg (by omega), if_neg (by omega), if_neg (by omega), if_neg (by omega)]
  rfl

/-- The records of a chunk: ChunkStart, 64 Rounds, ChunkEnd. -/
theorem chunk_records_length {c : Nat} (hc : c < chunkCountOf b.length) :
    ((chunkIndices c).map fun p => (serialize (messageEvent b p)).length).sum = 6466 := by
  have rounds : (List.range 64).map (fun i => (serialize (messageEvent b (1 + (66 * c + (1 + i))))).length) =
      (List.range 64).map fun _ => 98 :=
    List.map_congr_left fun i hi =>
      serialize_length_of_tag (by rw [messageEvent_tag_round b c (List.mem_range.mp hi), recordLength])
  have hcst : (serialize (messageEvent b (1 + 66 * c))).length = 105 :=
    serialize_length_of_tag (by rw [messageEvent_tag_cst b hc, recordLength])
  have hcen : (serialize (messageEvent b (1 + (66 * c + 65)))).length = 89 :=
    serialize_length_of_tag (by rw [messageEvent_tag_cen, recordLength])
  rw [map_chunkIndices, rounds, hcst, hcen]
  simp

theorem serializeTrace_run_length :
    (serializeTrace ((List.range (runLength b)).map (messageEvent b))).length = 123 + 6466 * chunkCountOf b.length := by
  have hpre : (serialize (messageEvent b 0)).length = 74 := 
    serialize_length_of_tag (by rw [messageEvent_tag_pre, recordLength])
  have hdon : (serialize (messageEvent b (1 + 66 * chunkCountOf b.length))).length = 49 :=
    serialize_length_of_tag (by rw [messageEvent_tag_don, recordLength])
  have chunks : (List.range (chunkCountOf b.length)).map
        (fun c => ((chunkIndices c).map fun p => (serialize (messageEvent b p)).length).sum) =
      (List.range (chunkCountOf b.length)).map fun _ => 6466 :=
    List.map_congr_left fun c hc => chunk_records_length b (List.mem_range.mp hc)
  rw [runLength, range_run]
  simp [serializeTrace, List.flatMap_map, List.length_flatMap, hpre, hdon, chunks, List.flatMap_assoc]
  omega

end

/-- Settles O38: the writer by the five kinds of record, the reader by `parseRecord_cons`, the trace of a run chunk by chunk. -/
theorem recordLengthsAndReservedTags : Obligations.RecordLengthsAndReservedTags := by
  refine ⟨fun e => ⟨recordLength_tag e, serialize_head? e⟩, fun tag rest h => ?_, serializeTrace_run_length⟩
  have hnone := recordLength_reserved h
  exact ⟨hnone, by simp [parseRecord_cons, hnone]⟩

end Sys2Proof.Machine
end

section
/-! A whole run (30_encoding.md R64). The invariant determines the sequencer's position from `EVN` (10_state.md R15), so it is enough
that every step of a run keeps the invariant and emits one event. The launch premises say what `MSG` reads as, not that it is in
its canonical form; `withMsg` exchanges the two. -/

namespace Sys2Proof.Machine

/-! ### Sequences of steps -/

theorem runs_succ_iff {k : Nat} {s u : State} : runs (k + 1) s u ↔ ∃ t, step s = .next t ∧ runs k t u := by
  unfold runs
  simp only [Host.Core.run]
  rw [show core.step s = step s from rfl]
  cases step s <;> simp

theorem runs_add {j k : Nat} {s t u : State} (h : runs j s t) (h' : runs k t u) : runs (j + k) s u := by
  induction j generalizing s with
  | zero =>
    cases h
    rwa [Nat.zero_add]
  | succ j ih =>
    obtain ⟨v, hstep, hruns⟩ := runs_succ_iff.mp h
    rw [Nat.succ_add]
    exact runs_succ_iff.mpr ⟨v, hstep, ih hruns⟩

/-- A state that steps to itself stays. -/
theorem runs_of_step_self {s : State} (h : step s = .next s) (k : Nat) : runs k s s := by
  induction k with
  | zero => rfl
  | succ k ih => exact runs_succ_iff.mpr ⟨s, h, ih⟩

/-! ### Steps under the invariant -/

/-- Under the invariant every byte that PRE or CST reads exists, so the sequencer always has a next state (R163). -/
theorem Inv.exists_engineStep {s : State} (h : Inv s) : ∃ t, engineStep s = .next t := by
  rw [engineStep_eq]
  cases hph : s.ph with
  | pre =>
    obtain ⟨_, hb⟩ : ∃ b, readMessage s = some b :=
      Option.isSome_iff_exists.mp (h.msgRange.readSeq_isSome (k := 0) (by omega))
    rcases execPre_cases s with ⟨b, -, hnext⟩ | ⟨hnone, -⟩
    · exact ⟨_, hnext⟩
    · cases hb.symm.trans hnone
  | cst =>
    have hcidx : s.cidx < s.nchunk := by simpa [inChunk, hph] using h.chunkIndex
    obtain ⟨hplen, -⟩ := h.geometry
    obtain ⟨_, hbs⟩ : ∃ bs, Cells.readSeq s.pmsg (64 * s.cidx) 64 = some bs :=
      Option.isSome_iff_exists.mp (h.pmsgRange.readSeq_isSome (by omega))
    rcases execCst_cases s with ⟨words, -, hnext⟩ | ⟨hnone, -⟩
    · exact ⟨_, hnext⟩
    · cases hbs.symm.trans ((chunkBlock_eq_none _ _).mp hnone)
  | idle => exact ⟨_, rfl⟩
  | rnd => exact ⟨_, roundStep_eq _ s⟩
  | cen => exact ⟨_, execCen_eq s⟩
  | don => exact ⟨_, execDon_eq s⟩
  | halt => exact ⟨_, rfl⟩

/-- No operation but HLT leaves the sequencer in `IDLE`. -/
theorem Effect.ph_ne_idle {i : Instr} {s t : State} (h : Effect i s t) (hi : i ≠ .hlt) : t.ph ≠ .idle := by
  cases h with
  | pre hb => nofun
  | cst hwords => nofun
  | round hfam =>
    rw [nextRound_ph]
    split <;> nofun
  | cen =>
    rw [nextChunk_ph]
    split <;> nofun
  | don => nofun
  | hlt => exact absurd rfl hi

/-- The operation of a busy engine is not HLT. -/
theorem ne_hlt_of_busy {s : State} {i : Instr} (hb : busy s = true) (h : decode (fetchCode s) = .ok i) : i ≠ .hlt := by
  rintro rfl
  rw [decode_fetchCode] at h
  cases hph : s.ph with rw [hph] at h
  | idle => simp [busy, hph] at hb
  | halt => simp [busy, hph] at hb
  | rnd => cases (congrArg roundFamily (Except.ok.inj h)).symm.trans (roundFamily_rndInstr s.ridx)
  | pre => cases h
  | cst => cases h
  | cen => cases h
  | don => cases h

/-- A state of a run on a message of `len` bytes, with no host move scheduled. -/
structure InRun (len : Nat) (s : State) : Prop where
  inv : Inv s
  moves : s.moves = []
  started : s.ph ≠ .idle
  mlen : s.mlen = len

section
variable {len : Nat} {s : State}

/-- The chunk count once PRE has run. -/
theorem InRun.nchunk (h : InRun len s) (hp : padded s = true) : s.nchunk = chunkCountOf len := by
  obtain ⟨-, hcount⟩ := h.inv.geometry
  rw [hcount, if_pos hp, h.mlen]

/-- Before the last event the engine is busy. -/
theorem InRun.busy (h : InRun len s) (hevn : s.evn < 2 + 66 * chunkCountOf len) : busy s = true := by
  have hev := h.inv.events
  unfold Machine.busy
  cases hph : s.ph with
  | idle => exact absurd hph h.started
  | halt =>
    have hn := h.nchunk (by rw [padded, hph])
    rw [eventCount, hph] at hev
    simp only at hev
    omega
  | pre => rfl
  | cst => rfl
  | rnd => rfl
  | cen => rfl
  | don => rfl

/-- A step of a busy engine emits one event and stays in the run. -/
theorem InRun.step (h : InRun len s) (hb : Machine.busy s = true) : ∃ t, step s = .next t ∧ InRun len t ∧ t.evn = s.evn + 1 := by
  obtain ⟨t, hstep⟩ := h.inv.exists_engineStep
  obtain ⟨i, hdec⟩ := decode_fetchCode_ok s
  have heff : Effect i s t := effect_of_exec ((engineStep_of_decode hdec).symm.trans hstep)
  have hi : i ≠ .hlt := ne_hlt_of_busy hb hdec
  have he : Emits s t := heff.emits hi
  exact ⟨t, (step_of_moves_nil h.moves).trans hstep,
    ⟨h.inv.after_engineStep hstep, he.moves.trans h.moves, heff.ph_ne_idle hi, he.mlen.trans h.mlen⟩, he.evn⟩

/-- The first steps of a run, one event each. -/
theorem InRun.runs (h : InRun len s) {k : Nat} (hk : s.evn + k ≤ 2 + 66 * chunkCountOf len) :
    ∃ t, runs k s t ∧ InRun len t ∧ t.evn = s.evn + k := by
  induction k generalizing s with
  | zero => exact ⟨s, rfl, h, rfl⟩
  | succ k ih =>
    obtain ⟨t, hstep, ht, hevn⟩ := h.step (h.busy (by omega))
    obtain ⟨u, hruns, hu, hevn'⟩ := ih ht (by omega)
    exact ⟨u, runs_succ_iff.mpr ⟨t, hstep, hruns⟩, hu, by omega⟩

/-- `EVN` determines the step code: it is the program's at that trace index (R64). -/
theorem InRun.fetchCode_eq (h : InRun len s) (hevn : s.evn < 2 + 66 * chunkCountOf len) :
    fetchCode s = programCode (chunkCountOf len) s.evn := by
  have hev := h.inv.events
  have hchunk := h.inv.chunkIndex
  have hn := h.nchunk
  cases hph : s.ph with simp only [eventCount, inChunk, padded, hph, if_true, forall_const] at hev hchunk hn
  | idle => exact absurd hph h.started
  | pre => rw [hev, programCode_pre, fetchCode, hph]; rfl
  | cst => rw [hev, programCode_cst (hn ▸ hchunk), fetchCode, hph]; rfl
  | rnd =>
    rw [hev, Nat.add_assoc, programCode_round _ _ s.ridx.isLt, fetchCode_of_rnd hph, encode_rndInstr, BitVec.ofNat_toNat,
      BitVec.setWidth_eq]
  | cen => rw [hev, Nat.add_assoc, programCode_cen, fetchCode, hph]; rfl
  | don => rw [hev, hn, programCode_don, fetchCode, hph]; rfl
  | halt => omega

/-- `EVN` determines the chunk. -/
theorem InRun.cidx_eq (h : InRun len s) (hevn : s.evn < 2 + 66 * chunkCountOf len) (hpre : s.evn ≠ 0)
    (hdon : s.evn ≠ 1 + 66 * chunkCountOf len) : s.cidx = (s.evn - 1) / 66 := by
  have hev := h.inv.events
  have hn := h.nchunk
  cases hph : s.ph with simp only [eventCount, padded, hph, forall_const] at hev hn
  | rnd =>
    have := s.ridx.isLt
    omega
  | idle => omega
  | pre => omega
  | cst => omega
  | cen => omega
  | don => omega
  | halt => omega

/-- When all events are written the engine is in `HALT`. -/
theorem InRun.halted (h : InRun len s) (hevn : s.evn = 2 + 66 * chunkCountOf len) : s.ph = .halt := by
  have hev := h.inv.events
  have hchunk := h.inv.chunkIndex
  have hn := h.nchunk
  cases hph : s.ph with simp only [eventCount, inChunk, padded, hph, if_true, forall_const] at hev hchunk hn
  | halt => rfl
  | idle => exact absurd hph h.started
  | rnd =>
    have := s.ridx.isLt
    omega
  | pre => omega
  | cst => omega
  | cen => omega
  | don => omega

end

/-! ### The clauses of the program, by the trace index -/

theorem programCode_toNat_of_pos {n k : Nat} (hpre : k ≠ 0) (hdon : k ≠ 1 + 66 * n) :
    ((k - 1) % 66 = 0 → (programCode n k).toNat = 0x01) ∧ ((k - 1) % 66 = 65 → (programCode n k).toNat = 0x02) ∧
    (1 ≤ (k - 1) % 66 → (k - 1) % 66 ≤ 64 → (programCode n k).toNat = 0x40 + ((k - 1) % 66 - 1)) := by
  unfold programCode
  rw [if_neg hpre, if_neg hdon]
  refine ⟨fun h => ?_, fun h => ?_, fun hlo hhi => ?_⟩
  · rw [if_pos h]
    rfl
  · rw [if_neg (by omega), if_pos h]
    rfl
  · rw [if_neg (by omega), if_neg (by omega)]
    have hlt : (k - 1) % 66 - 1 < 64 := by omega
    generalize (k - 1) % 66 - 1 = i at hlt ⊢
    simp only [BitVec.toNat_add, BitVec.toNat_ofNat, BitVec.reduceToNat]
    omega

/-! ### The form of `MSG` -/

/-- The state with `MSG` held as `m`. -/
def withMsg (m : Memory) (s : State) : State := { s with msg := m }

theorem nextRound_withMsg (m : Memory) (s : State) : nextRound (withMsg m s) = withMsg m (nextRound s) := by
  unfold nextRound
  rw [apply_ite (withMsg m)]
  rfl

theorem nextChunk_withMsg (m : Memory) (s : State) : nextChunk (withMsg m s) = withMsg m (nextChunk s) := by
  unfold nextChunk
  rw [apply_ite (withMsg m)]
  rfl

section
variable {m : Memory} {s t : State} (hm : ∀ k, Cells.read m k = Cells.read s.msg k)
include hm

theorem readMessage_withMsg : readMessage (withMsg m s) = readMessage s := by
  refine Option.ext fun b => ?_
  simp [readMessage_eq_some, withMsg, hm]

/-- An operation does the same on a `MSG` that reads the same. -/
theorem Effect.withMsg {i : Instr} (h : Effect i s t) : Effect i (withMsg m s) (withMsg m t) := by
  cases h with
  | pre hb => exact .pre ((readMessage_withMsg hm).trans hb)
  | cst hwords => exact .cst hwords
  | round hfam =>
    rw [← nextRound_withMsg]
    exact .round hfam
  | cen =>
    rw [← nextChunk_withMsg]
    exact .cen
  | don => exact .don
  | hlt => exact .hlt

end

/-- The effect of an operation is what `exec` answers. -/
theorem exec_of_effect {i : Instr} {s t : State} (h : Effect i s t) : exec i s = .next t := by
  cases h with
  | pre hb => rw [exec, execPre, hb]
  | cst hwords => rw [exec, execCst, hwords]
  | round hfam => obtain ⟨k, rfl | rfl | rfl | rfl⟩ := eq_rnd_of_roundFamily hfam <;> cases hfam <;> rfl
  | cen => rfl
  | don => rfl
  | hlt => rfl

/-- An operation emits one event or changes nothing. -/
theorem Effect.emits_or_eq {i : Instr} {s t : State} (h : Effect i s t) : Emits s t ∨ t = s := by
  by_cases hi : i = .hlt
  · subst hi
    cases h with
    | round hfam => cases hfam
    | hlt => exact .inr rfl
  · exact .inl (h.emits hi)

theorem Effect.msg_eq {i : Instr} {s t : State} (h : Effect i s t) : t.msg = s.msg :=
  h.emits_or_eq.elim Emits.msg fun heq => by rw [heq]

theorem Effect.moves_eq {i : Instr} {s t : State} (h : Effect i s t) : t.moves = s.moves :=
  h.emits_or_eq.elim Emits.moves fun heq => by rw [heq]

/-- A run with no host move does the same on a `MSG` that reads the same. -/
theorem runs_withMsg {m : Memory} {k : Nat} {s t : State} (hm : ∀ a, Cells.read m a = Cells.read s.msg a) (hmoves : s.moves = [])
    (h : runs k s t) : runs k (withMsg m s) (withMsg m t) := by
  induction k generalizing s with
  | zero => cases h; rfl
  | succ k ih =>
    obtain ⟨u, hstep, hruns⟩ := runs_succ_iff.mp h
    obtain ⟨i, hdec⟩ := decode_fetchCode_ok s
    have heff : Effect i s u :=
      effect_of_exec ((engineStep_of_decode hdec).symm.trans ((step_of_moves_nil hmoves).symm.trans hstep))
    have hstep' : step (withMsg m s) = .next (withMsg m u) := by
      rw [step_of_moves_nil (s := withMsg m s) hmoves, engineStep_of_decode (s := withMsg m s) hdec]
      exact exec_of_effect (heff.withMsg hm)
    exact runs_succ_iff.mpr ⟨_, hstep', ih (fun a => (hm a).trans (by rw [heff.msg_eq])) (heff.moves_eq.trans hmoves) hruns⟩

/-- The launch premises (70_reset_and_hazards.md R213) give the invariant when `MSG` is in its canonical form. -/
theorem LaunchPremises.inv {b : List Byte} {s : State} (h : LaunchPremises b s) (hwf : Cells.wf s.msg) : Inv s := by
  obtain ⟨⟨hph, hcidx, hridx⟩, ⟨hevn, herr⟩, hhash, hlen, hmsg, hpmsg, htrace, hplen, hnchunk⟩ := h
  exact {
    canonical := ⟨hwf, hpmsg ▸ Cells.wf_nil, htrace ▸ Cells.wf_nil⟩
    msgRange := fun k => by simp [hmsg, hlen]
    pmsgRange := by rw [hpmsg, hplen]; exact Cells.covers_nil
    traceRange := by rw [htrace, hevn]; exact Cells.covers_nil
    geometry := by simp [hplen, hnchunk, padded, hph]
    padding := by simp [padded, hph]
    chunkIndex := by simp [inChunk, hph, hcidx]
    roundIndex := fun _ => hridx
    events := by rw [hevn, eventCount, hph]
    untouched := fun _ => hhash
    idle := by simp [herr, hph]
    buffer := by simp [hph]
    finished := by simp [hph] }

/-- The launch premises do not depend on the form of `MSG`. -/
theorem LaunchPremises.withMsg {b : List Byte} {s : State} {m : Memory} (h : LaunchPremises b s)
    (hm : ∀ k, Cells.read m k = Cells.read s.msg k) : LaunchPremises b (withMsg m s) where
  phase := h.phase
  counters := h.counters
  hash := h.hash
  length := h.length
  message := fun k => (hm k).trans (h.message k)
  empty := h.empty

/-- The message in the canonical form of `MSG`. -/
def messageCells (b : List Byte) : Memory := Cells.writeSeq [] 0 b

theorem messageCells_read (b : List Byte) (k : Nat) : Cells.read (messageCells b) k = b[k]? :=
  (launched_premises b State.reset).message k

/-- After `k` steps of a run `k` events are written and the invariant holds, but for the form of `MSG`. -/
theorem LaunchPremises.runs {b : List Byte} {s : State} (h : LaunchPremises b s) (hmoves : s.moves = []) {k : Nat}
    (hk : k ≤ runLength b) : ∃ t, Machine.runs k s (Machine.withMsg s.msg t) ∧ InRun b.length t ∧ t.evn = k := by
  have hread (a : Nat) : Cells.read s.msg a = Cells.read (messageCells b) a :=
    (h.message a).trans (messageCells_read b a).symm
  have hcanon : LaunchPremises b (Machine.withMsg (messageCells b) s) := h.withMsg fun a => (hread a).symm
  have hinv := hcanon.inv (Cells.wf_writeSeq [] 0 b Cells.wf_nil)
  obtain ⟨hph, -, -⟩ := hcanon.phase
  obtain ⟨hevn, -⟩ := hcanon.counters
  have hstart : InRun b.length (Machine.withMsg (messageCells b) s) :=
    ⟨hinv, hmoves, by rw [hph]; nofun, hcanon.length⟩
  obtain ⟨t, hruns, ht, hevn'⟩ := hstart.runs (k := k) (by rwa [hevn, Nat.zero_add])
  exact ⟨t, runs_withMsg (s := Machine.withMsg (messageCells b) s) hread hmoves hruns, ht, by rw [hevn', hevn, Nat.zero_add]⟩

/-- Settles O57: up to the last event by the program at `EVN`; then the engine is in `HALT`, whose step changes nothing. -/
theorem runExecutesTheProgram : Obligations.RunExecutesTheProgram := by
  intro b s h hmoves
  refine ⟨fun k hk => ?running, fun k hk => ?halted, rfl, by unfold chunkCountOf; omega⟩
  case running =>
    obtain ⟨t, hruns, ht, rfl⟩ := h.runs hmoves hk.le
    have hcode : fetchCode (withMsg s.msg t) = programCode (chunkCountOf b.length) t.evn := ht.fetchCode_eq hk
    refine ⟨_, hruns, rfl, fun hpre => ?_, fun hdon => ?_, fun hpre hdon => ⟨ht.cidx_eq hk hpre hdon, ?_⟩⟩
    · rw [hcode, hpre, programCode_pre]
      rfl
    · rw [hcode, hdon, programCode_don]
      rfl
    · rw [hcode]
      exact programCode_toNat_of_pos hpre hdon
  case halted =>
    obtain ⟨t, hruns, ht, hevn⟩ := h.runs hmoves le_rfl
    have hph : (withMsg s.msg t).ph = .halt := ht.halted hevn
    have hstay : step (withMsg s.msg t) = .next (withMsg s.msg t) := by
      rw [step_of_moves_nil (s := withMsg s.msg t) ht.moves, engineStep_eq, hph]
    have hmore := runs_add hruns (runs_of_step_self hstay (k - runLength b))
    rw [Nat.add_sub_cancel' hk] at hmore
    exact ⟨_, hmore, by rw [fetchCode, hph]; rfl, hruns⟩

end Sys2Proof.Machine
end

section
/-! The front end (40_input_frontend.md R91 to R93): the bytes of a character by bit fields, which texts hex mode rejects, and the
bytes of the texts it accepts. -/

namespace Sys2Proof.Machine

/-! ### Text mode -/

theorem normalizeText_text (p : Params) (text : List Nat) : normalizeText p text .text = .ok (text.flatMap utf8Char) := rfl

theorem isScalar_iff (u : Nat) : isScalar u = true ↔ u ≤ 0xD7FF ∨ (0xE000 ≤ u ∧ u ≤ 0x10FFFF) := by
  simp [isScalar, Nat.lt_succ_iff]

/-- Fixed bits before a bit field, as a sum. -/
theorem append_extractLsb' {v n : Nat} (pre : BitVec v) (u : BitVec n) (lo w : Nat) :
    pre ++ u.extractLsb' lo w = BitVec.ofNat (v + w) (pre.toNat * 2 ^ w + u.toNat / 2 ^ lo % 2 ^ w) := by
  have hfield : u.toNat / 2 ^ lo % 2 ^ w < 2 ^ w := Nat.mod_lt _ (Nat.two_pow_pos w)
  have hsum : (pre ++ u.extractLsb' lo w).toNat = pre.toNat * 2 ^ w + u.toNat / 2 ^ lo % 2 ^ w := by
    rw [BitVec.toNat_append, BitVec.extractLsb'_toNat, Nat.shiftRight_eq_div_pow, ← Nat.shiftLeft_add_eq_or_of_lt hfield,
      Nat.shiftLeft_eq]
  rw [← hsum, BitVec.ofNat_toNat, BitVec.setWidth_eq]

section
variable (u : BitVec 21)

/-- The continuation byte that carries bits `lo + 5` to `lo` (R91). -/
theorem continuationByte_eq (lo : Nat) : 0b10#2 ++ u.extractLsb' lo 6 = BitVec.ofNat 8 (0x80 + u.toNat / 2 ^ lo % 2 ^ 6) :=
  append_extractLsb' 0b10#2 u lo 6

theorem lastByte_eq : 0b10#2 ++ u.extractLsb' 0 6 = BitVec.ofNat 8 (0x80 + u.toNat % 2 ^ 6) := by
  rw [continuationByte_eq, Nat.pow_zero, Nat.div_one]

theorem utf8Char_one_byte (h : u.toNat ≤ 0x7F) : utf8Char u.toNat = [0#1 ++ u.extractLsb' 0 7] := by
  have hbyte : 0#1 ++ u.extractLsb' 0 7 = BitVec.ofNat 8 u.toNat := by
    rw [append_extractLsb', Nat.pow_zero, Nat.div_one, Nat.mod_eq_of_lt (by omega)]
    simp
  rw [utf8Char, if_pos h, hbyte]

theorem utf8Char_two_bytes (hlo : 0x80 ≤ u.toNat) (hhi : u.toNat ≤ 0x7FF) :
    utf8Char u.toNat = [0b110#3 ++ u.extractLsb' 6 5, 0b10#2 ++ u.extractLsb' 0 6] := by
  rw [utf8Char, if_neg (by omega), if_pos hhi, lastByte_eq, append_extractLsb']
  rfl

theorem utf8Char_three_bytes (hlo : 0x800 ≤ u.toNat) (hhi : u.toNat ≤ 0xFFFF) :
    utf8Char u.toNat = [0b1110#4 ++ u.extractLsb' 12 4, 0b10#2 ++ u.extractLsb' 6 6, 0b10#2 ++ u.extractLsb' 0 6] := by
  rw [utf8Char, if_neg (by omega), if_neg (by omega), if_pos hhi, lastByte_eq, continuationByte_eq, append_extractLsb']
  rfl

theorem utf8Char_four_bytes (hlo : 0x10000 ≤ u.toNat) :
    utf8Char u.toNat = [0b11110#5 ++ u.extractLsb' 18 3, 0b10#2 ++ u.extractLsb' 12 6, 0b10#2 ++ u.extractLsb' 6 6,
      0b10#2 ++ u.extractLsb' 0 6] := by
  rw [utf8Char, if_neg (by omega), if_neg (by omega), if_neg (by omega), lastByte_eq, continuationByte_eq, continuationByte_eq,
    append_extractLsb']
  rfl

end

/-- Settles O40: the four ranges one by one. -/
theorem textModeIsUtf8 : Obligations.TextModeIsUtf8 :=
  ⟨normalizeText_text, isScalar_iff, fun u =>
    ⟨utf8Char_one_byte u, utf8Char_two_bytes u, utf8Char_three_bytes u, fun hlo _ => utf8Char_four_bytes u hlo⟩⟩

/-! ### Hexadecimal digits -/

/-- `[0-9a-fA-F]` (R92). -/
def IsHexDigit (u : Nat) : Prop := (0x30 ≤ u ∧ u ≤ 0x39) ∨ (0x61 ≤ u ∧ u ≤ 0x66) ∨ (0x41 ≤ u ∧ u ≤ 0x46)

/-- `hv` of R93 on a digit; `hexValue_of_isHexDigit` ties it to the model's `hexValue`. -/
def digitValue (u : Nat) : Nat := if u ≤ 0x39 then u - 0x30 else if u ≤ 0x46 then u - 0x41 + 10 else u - 0x61 + 10

theorem digitValue_lt {u : Nat} (h : IsHexDigit u) : digitValue u < 16 := by
  unfold IsHexDigit at h
  unfold digitValue
  split_ifs <;> omega

theorem hexValue_of_isHexDigit {u : Nat} (h : IsHexDigit u) : hexValue u = some (digitValue u) := by
  unfold hexValue digitValue
  obtain ⟨hlo, hhi⟩ | ⟨hlo, hhi⟩ | ⟨hlo, hhi⟩ := h
  case inl => rw [if_pos ⟨hlo, hhi⟩, if_pos hhi]
  case inr.inl => rw [if_neg (by omega), if_pos ⟨hlo, hhi⟩, if_neg (by omega), if_neg (by omega)]
  case inr.inr => rw [if_neg (by omega), if_neg (by omega), if_pos ⟨hlo, hhi⟩, if_neg (by omega), if_pos hhi]

theorem hexValue_eq_none_iff (u : Nat) : hexValue u = none ↔ ¬ IsHexDigit u := by
  constructor
  case mp =>
    intro hnone hdigit
    rw [hexValue_of_isHexDigit hdigit] at hnone
    cases hnone
  case mpr =>
    intro h
    obtain ⟨hdecimal, hlower, hupper⟩ := (not_or.trans (and_congr_right' not_or)).mp h
    rw [hexValue, if_neg hdecimal, if_neg hlower, if_neg hupper]

/-! ### Which texts hex mode accepts -/

theorem isWhitespace_default_iff (u : Nat) :
    isWhitespace Params.default u = true ↔ u = 0x09 ∨ u = 0x0A ∨ u = 0x0B ∨ u = 0x0C ∨ u = 0x0D ∨ u = 0x20 := by
  simp only [isWhitespace, Params.default, Bool.or_eq_true, beq_iff_eq, List.contains_iff_mem, List.mem_cons, List.not_mem_nil,
    or_false]
  omega

theorem hexRejects_iff (t : List Nat) : hexRejects t = true ↔ t.length % 2 = 1 ∨ ∃ u ∈ t, ¬ IsHexDigit u := by
  simp [hexRejects, hexValue_eq_none_iff]

theorem normalizeText_hex_error_iff (p : Params) (text : List Nat) :
    normalizeText p text .hex = .error .invalidHexInput ↔ hexRejects (stripWhitespace p text) = true := by
  cases h : hexRejects (stripWhitespace p text) <;> simp [normalizeText, h]

theorem normalizeText_hex_ok_iff (p : Params) (text : List Nat) (bs : List Byte) :
    normalizeText p text .hex = .ok bs ↔
      hexRejects (stripWhitespace p text) = false ∧ decodePairs (stripWhitespace p text) = bs := by
  cases h : hexRejects (stripWhitespace p text) <;> simp [normalizeText, h]

theorem stripWhitespace_eq_nil {p : Params} {text : List Nat} (h : ∀ u ∈ text, isWhitespace p u = true) :
    stripWhitespace p text = [] := by
  simpa [stripWhitespace] using h

/-- Settles O41: hex mode fails exactly when `hexRejects` holds of the stripped text, and it does not hold of the empty text. -/
theorem hexModeAcceptance : Obligations.HexModeAcceptance := by
  refine ⟨fun p text => ?_, isWhitespace_default_iff, fun p text h => ?_⟩
  · exact (normalizeText_hex_error_iff p text).trans (hexRejects_iff _)
  · rw [normalizeText_hex_ok_iff, stripWhitespace_eq_nil h]
    exact ⟨rfl, rfl⟩

/-! ### The bytes of an accepted text -/

/-- The text that is accepted: an even number of characters, each a digit (R92). -/
theorem even_and_digits_of_not_hexRejects {t : List Nat} (h : hexRejects t = false) :
    t.length % 2 = 0 ∧ ∀ u ∈ t, IsHexDigit u := by
  have hnot : ¬ (t.length % 2 = 1 ∨ ∃ u ∈ t, ¬ IsHexDigit u) := by simp [← hexRejects_iff, h]
  obtain ⟨hodd, hbad⟩ := not_or.mp hnot
  exact ⟨Nat.mod_two_ne_one.mp hodd, by simpa using hbad⟩

/-- A pair of digits is a byte, the first digit the high nibble. -/
theorem pairByte_toNat {x y : Nat} (hx : IsHexDigit x) (hy : IsHexDigit y) :
    (BitVec.ofNat 8 (16 * (hexValue x).getD 0 + (hexValue y).getD 0)).toNat = 16 * digitValue x + digitValue y := by
  rw [hexValue_of_isHexDigit hx, hexValue_of_isHexDigit hy, BitVec.toNat_ofNat]
  have hhi := digitValue_lt hx
  have hlo := digitValue_lt hy
  exact Nat.mod_eq_of_lt (by simp only [Option.getD_some]; omega)

theorem decodePairs_length (t : List Nat) : (decodePairs t).length = t.length / 2 := by
  induction t using decodePairs.induct with
  | case1 x y rest ih =>
    rw [decodePairs, List.length_cons, ih]
    exact (Nat.add_div_right rest.length two_pos).symm
  | case2 t hshort =>
    rcases t with _ | ⟨x, _ | ⟨y, rest⟩⟩
    · rfl
    · simp [decodePairs]
    · exact (hshort x y rest rfl).elim

theorem decodePairs_getD_toNat {t : List Nat} (ht : ∀ u ∈ t, IsHexDigit u) {k : Nat} (hk : k < (decodePairs t).length) :
    ((decodePairs t).getD k 0).toNat = 16 * digitValue (t.getD (2 * k) 0) + digitValue (t.getD (2 * k + 1) 0) := by
  induction t using decodePairs.induct generalizing k with
  | case1 x y rest ih =>
    rw [List.forall_mem_cons, List.forall_mem_cons] at ht
    obtain ⟨hx, hy, hrest⟩ := ht
    cases k with
    | zero => exact pairByte_toNat hx hy
    | succ k => exact ih hrest (Nat.lt_of_succ_lt_succ hk)
  | case2 t hshort =>
    rw [decodePairs] at hk
    · cases hk
    · exact hshort

/-- Settles O42: an accepted text has an even number of characters, all of them digits, and `decodePairs` gives their bytes. -/
theorem hexModeDecoding : Obligations.HexModeDecoding := by
  intro p text bs h
  obtain ⟨haccept, rfl⟩ := (normalizeText_hex_ok_iff p text bs).mp h
  obtain ⟨heven, hdigits⟩ := even_and_digits_of_not_hexRejects haccept
  refine ⟨?_, fun k hk => decodePairs_getD_toNat hdigits hk⟩
  rw [decodePairs_length]
  exact (Nat.mul_div_cancel' (Nat.dvd_of_mod_eq_zero heven)).symm

end Sys2Proof.Machine
end

section
/-! The Padding & Framer (41_padding_framer.md R100 to R105): how many bytes it adds, what each region of the padded message holds,
and that the message can be read back from it. -/

namespace Sys2Proof.Machine

/-! ### Lengths -/

/-- The bytes added: the marker, the zeros and the eight bytes of the suffix. -/
theorem pad_length_eq_add_zeroFill (b : List Byte) : (pad b).length = b.length + 9 + zeroFill b.length := by
  simp only [pad, List.length_append, List.length_replicate, lengthSuffix_length, List.length_cons, List.length_nil]
  omega

/-- Settles O32: `9 + zeroFill` bytes are added, where `zeroFill` is below 64 and fixed by the length modulo 64. -/
theorem paddingGeometry : Obligations.PaddingGeometry := by
  intro b len z
  have hadd : (pad b).length = len + 9 + z := pad_length_eq_add_zeroFill b
  have hclosed : (pad b).length = 64 * ((len + 8) / 64 + 1) := pad_length b
  obtain ⟨hlt, hmod⟩ : z < 64 ∧ (len + 1 + z) % 64 = 56 := zeroFill_spec len
  refine ⟨hadd, hclosed, pad_length_div b, ?_, ?_, ?_, ?_⟩ <;> omega

/-! ### The regions of the padded message -/

/-- Where the suffix begins. -/
theorem pad_length_sub_eight (b : List Byte) : (pad b).length - 8 = b.length + 1 + zeroFill b.length := by
  rw [pad_length_eq_add_zeroFill]
  omega

theorem take_length_pad (b : List Byte) : (pad b).take b.length = b := by
  simp [pad]

theorem getElem?_length_pad (b : List Byte) : (pad b)[b.length]? = some 0x80 := by
  simp [pad]

theorem getElem?_pad_of_zeroFill {b : List Byte} {k : Nat} (hlo : b.length < k) (hhi : k < (pad b).length - 8) :
    (pad b)[k]? = some 0x00 := by
  obtain ⟨j, rfl⟩ := Nat.exists_eq_add_of_lt hlo
  have hj : j < zeroFill b.length := by
    rw [pad_length_sub_eight] at hhi
    omega
  have hskip : b.length + j + 1 = (b ++ [0x80]).length + j := by
    rw [List.length_append, List.length_singleton, Nat.add_right_comm]
  rw [pad, List.append_assoc, hskip, List.getElem?_append_right (Nat.le_add_right _ _), Nat.add_sub_cancel_left,
    List.getElem?_append_left (by rwa [List.length_replicate]), List.getElem?_replicate_of_lt hj]

theorem drop_pad_suffix (b : List Byte) : (pad b).drop ((pad b).length - 8) = lengthSuffix b.length := by
  rw [pad_length_sub_eight, pad]
  exact List.drop_left' (by simp only [List.length_append, List.length_singleton, List.length_replicate])

theorem leValue_lengthSuffix (len : Nat) : leValue (lengthSuffix len) = (8 * len) % 2 ^ 64 :=
  (leValue_leBytes 8 _).trans (Nat.mod_mod _ (2 ^ 64))

/-! ### Injectivity -/

/-- The suffix gives back the length of a message below 2^61 bytes, whose bit length is below 2^64. -/
theorem leValue_drop_pad_of_lt {b : List Byte} (h : b.length < 2 ^ 61) :
    leValue ((pad b).drop ((pad b).length - 8)) = 8 * b.length := by
  rw [drop_pad_suffix, leValue_lengthSuffix]
  exact Nat.mod_eq_of_lt (by omega)

/-- The suffix gives the length of the message, and the message is the prefix of that length. -/
theorem pad_injective_of_lt {b b' : List Byte} (hb : b.length < 2 ^ 61) (hb' : b'.length < 2 ^ 61) (h : pad b = pad b') :
    b = b' := by
  have hlen : b.length = b'.length := by
    refine Nat.eq_of_mul_eq_mul_left (by decide : 0 < 8) ?_
    rw [← leValue_drop_pad_of_lt hb, ← leValue_drop_pad_of_lt hb', h]
  calc b = (pad b).take b.length := (take_length_pad b).symm
    _ = (pad b').take b'.length := by rw [h, hlen]
    _ = b' := take_length_pad b'

/-- Settles O33: the regions one by one, and injectivity by the suffix. -/
theorem paddingLayout : Obligations.PaddingLayout := by
  refine ⟨fun b => ⟨?_, ?_, take_length_pad b, getElem?_length_pad b, fun k => getElem?_pad_of_zeroFill, ?_⟩,
    fun b b' => pad_injective_of_lt⟩
  · rw [pad_length]
    exact Nat.mul_mod_right 64 _
  · rw [pad_length, chunkCountOf]
    omega
  · rw [drop_pad_suffix, leValue_lengthSuffix]

end Sys2Proof.Machine
end

section
/-! The Chunk Splitter (42_chunk_splitter.md R110 to R113). Both statements see the same bytes at two places, so what they say of
words is put as little-endian fields of a byte sequence: a field of a slice is a field of the whole sequence, and a byte of a word
is a field of one byte. -/

namespace Sys2Proof.Machine

/-! ### Little-endian fields of a byte sequence -/

@[simp] theorem fieldNat_zero (bs : List Byte) (off : Nat) : fieldNat bs off 0 = 0 := by
  rw [fieldNat, List.take_zero, leValue]

/-- Past the end of the sequence the bytes count as zero. -/
theorem fieldNat_succ (bs : List Byte) (off n : Nat) :
    fieldNat bs off (n + 1) = (bs.getD off 0).toNat + 256 * fieldNat bs (off + 1) n := by
  by_cases h : off < bs.length
  · rw [fieldNat, List.drop_eq_getElem_cons h, List.take_succ_cons, leValue, List.getD_eq_getElem _ _ h, fieldNat]
  · have hlen : bs.length ≤ off := Nat.le_of_not_lt h
    rw [fieldNat, fieldNat, List.drop_of_length_le hlen, List.drop_of_length_le (Nat.le_succ_of_le hlen),
      List.getD_eq_default _ _ hlen]
    simp [leValue]

theorem fieldNat_one (bs : List Byte) (off : Nat) : fieldNat bs off 1 = (bs.getD off 0).toNat := by
  simp [fieldNat_succ]

theorem leValue_cons_mod (b : Byte) (bs : List Byte) : leValue (b :: bs) % 256 = b.toNat := by
  have hb : b.toNat < 256 := b.isLt
  rw [leValue]
  omega

theorem leValue_cons_div (b : Byte) (bs : List Byte) : leValue (b :: bs) / 256 = leValue bs := by
  have hb : b.toNat < 256 := b.isLt
  rw [leValue]
  omega

/-- The first `n` bytes are the low end of the value. -/
theorem leValue_take (bs : List Byte) (n : Nat) : leValue (bs.take n) = leValue bs % 256 ^ n := by
  induction n generalizing bs with
  | zero => simp [leValue, Nat.mod_one]
  | succ n ih =>
    cases bs with
    | nil => simp [leValue]
    | cons b bs =>
      rw [List.take_succ_cons, leValue, ih, pow_succ', Nat.mod_mul, leValue_cons_mod, leValue_cons_div]

/-- The bytes from `k` on are the high end of the value. -/
theorem leValue_drop (bs : List Byte) (k : Nat) : leValue (bs.drop k) = leValue bs / 256 ^ k := by
  induction k generalizing bs with
  | zero => simp
  | succ k ih =>
    cases bs with
    | nil => simp [leValue]
    | cons b bs =>
      rw [List.drop_succ_cons, ih, pow_succ', ← Nat.div_div_eq_div_mul, leValue_cons_div]

/-- A field of a sequence in terms of the value of the whole sequence. -/
theorem fieldNat_eq_div_mod (bs : List Byte) (off n : Nat) : fieldNat bs off n = leValue bs / 256 ^ off % 256 ^ n := by
  rw [fieldNat, leValue_take, leValue_drop]

/-- A field of a slice is a field of the whole sequence. -/
theorem fieldNat_slice (bs : List Byte) (base : Nat) {len off n : Nat} (h : off + n ≤ len) :
    fieldNat ((bs.drop base).take len) off n = fieldNat bs (base + off) n := by
  rw [fieldNat, List.drop_take, List.take_take, List.drop_drop, Nat.min_eq_left (by omega), fieldNat]

/-- `leBytes` inverts `leValue` at the length of the sequence. -/
theorem leBytes_leValue {bs : List Byte} {n : Nat} (h : bs.length = n) : leBytes n (leValue bs) = bs := by
  subst h
  induction bs with
  | nil => rfl
  | cons b bs ih =>
    rw [List.length_cons, leBytes, leValue_cons_mod, leValue_cons_div, ih, BitVec.ofNat_toNat, BitVec.setWidth_eq]

/-! ### Words -/

theorem wordAt_toNat (bs : List Byte) (j : Nat) : (wordAt bs j).toNat = fieldNat bs (4 * j) 4 := by
  have h0 : (bs.getD (4 * j) 0).toNat < 256 := BitVec.isLt _
  have h1 : (bs.getD (4 * j + 1) 0).toNat < 256 := BitVec.isLt _
  have h2 : (bs.getD (4 * j + 2) 0).toNat < 256 := BitVec.isLt _
  have h3 : (bs.getD (4 * j + 3) 0).toNat < 256 := BitVec.isLt _
  simp only [wordAt, le32, fieldNat_succ, fieldNat_zero, BitVec.toNat_ofNat, Nat.add_assoc, Nat.reduceAdd]
  omega

/-- The bytes of a decoded word are the four it was decoded from (R111). -/
theorem wordBytes_wordAt {bs : List Byte} {j : Nat} (h : 4 * j + 4 ≤ bs.length) :
    wordBytes (wordAt bs j) = (bs.drop (4 * j)).take 4 := by
  rw [wordBytes, wordAt_toNat, fieldNat]
  exact leBytes_leValue (by rw [List.length_take, List.length_drop]; omega)

/-! ### Slices in order -/

/-- The first `n` slices of `k` elements, in order, are the first `k * n` elements. -/
theorem flatMap_slices {α : Type} (k n : Nat) (xs : List α) :
    (List.range n).flatMap (fun c => (xs.drop (k * c)).take k) = xs.take (k * n) := by
  induction n with
  | zero => simp
  | succ n ih => rw [List.range_succ, List.flatMap_append, ih, List.flatMap_singleton, Nat.mul_succ, List.take_add]

theorem toList_decodeBlock (bs : List Byte) : (decodeBlock bs).toList = (List.range 16).map (wordAt bs) :=
  List.ext_getElem (by simp) (by simp [decodeBlock])

/-- The words of a 64-byte slice give back its bytes. -/
theorem flatMap_wordBytes_decodeBlock {bs : List Byte} (h : bs.length = 64) :
    (decodeBlock bs).toList.flatMap wordBytes = bs := by
  have hword (j : Nat) (hj : j ∈ List.range 16) : wordBytes (wordAt bs j) = (bs.drop (4 * j)).take 4 :=
    wordBytes_wordAt (by rw [List.mem_range] at hj; omega)
  calc (decodeBlock bs).toList.flatMap wordBytes
      = (List.range 16).flatMap (fun j => (bs.drop (4 * j)).take 4) := by
        rw [toList_decodeBlock, List.flatMap_map, List.flatMap_congr hword]
    _ = bs := by rw [flatMap_slices, List.take_of_length_le h.le]

theorem length_chunkSlice {pm : List Byte} {c : Nat} (h : c < pm.length / 64) : (chunkSlice pm c).length = 64 := by
  rw [chunkSlice, List.length_take, List.length_drop]
  omega

theorem mem_split_iff {pm : List Byte} {ch : List Byte × Block} :
    ch ∈ split pm ↔ ∃ c < pm.length / 64, ch = (chunkSlice pm c, decodeBlock (chunkSlice pm c)) := by
  simp [split, eq_comm]

/-- The raw bytes of the chunks in order are the padded message (R110). -/
theorem flatten_map_fst_split {pm : List Byte} (h : pm.length % 64 = 0) : ((split pm).map Prod.fst).flatten = pm := by
  calc ((split pm).map Prod.fst).flatten
      = (List.range (pm.length / 64)).flatMap (fun c => (pm.drop (64 * c)).take 64) := by
        rw [split, List.map_map, List.flatMap_def]
        rfl
    _ = pm := by rw [flatMap_slices, List.take_of_length_le (by omega)]

/-- Settles O34: slices in order are the start of the sequence, and by its length all of it, both for the chunks of the message
and for the words of a chunk. -/
theorem splitCoversTheMessage : Obligations.SplitCoversTheMessage := by
  refine fun pm h => ⟨by simp [split], flatten_map_fst_split h, fun ch hch => ?_⟩
  obtain ⟨c, hc, rfl⟩ := mem_split_iff.mp hch
  exact ⟨length_chunkSlice hc, (flatMap_wordBytes_decodeBlock (length_chunkSlice hc)).symm⟩

/-! ### The framing in the words of the chunks -/

/-- Word `j` of chunk `c` is the field of four bytes at `64c + 4j` of the padded message (R111). -/
theorem messageBlock_toNat (b : List Byte) (c : Nat) {j : Nat} (hj : j < 16) :
    (messageBlock b c)[j].toNat = fieldNat (pad b) (64 * c + 4 * j) 4 := by
  rw [messageBlock, decodeBlock, Vector.getElem_ofFn, wordAt_toNat]
  exact fieldNat_slice (pad b) (64 * c) (by omega)

/-- The last eight bytes of the last chunk are the length suffix. -/
theorem length_pad_sub_eight_eq_chunk (b : List Byte) : (pad b).length - 8 = 64 * (chunkCountOf b.length - 1) + 56 := by
  rw [pad_length, chunkCountOf]
  omega

/-- A field of the last chunk, `off` bytes after the start of the length suffix. -/
theorem fieldNat_pad_suffix (b : List Byte) (off n : Nat) :
    fieldNat (pad b) (64 * (chunkCountOf b.length - 1) + (56 + off)) n = (8 * b.length) % 2 ^ 64 / 256 ^ off % 256 ^ n := by
  rw [← Nat.add_assoc, ← length_pad_sub_eight_eq_chunk, fieldNat, ← List.drop_drop, drop_pad_suffix, ← fieldNat,
    fieldNat_eq_div_mod, leValue_lengthSuffix]

theorem messageBlock_suffix_low (b : List Byte) :
    ((messageBlock b (chunkCountOf b.length - 1))[14]).toNat = ((8 * b.length) % 2 ^ 64) % 2 ^ 32 := by
  calc ((messageBlock b (chunkCountOf b.length - 1))[14]).toNat
      = (8 * b.length) % 2 ^ 64 / 256 ^ 0 % 256 ^ 4 := (messageBlock_toNat b _ _).trans (fieldNat_pad_suffix b 0 4)
    _ = ((8 * b.length) % 2 ^ 64) % 2 ^ 32 := by rw [pow_zero, Nat.div_one, show 256 ^ 4 = 2 ^ 32 from rfl]

theorem messageBlock_suffix_high (b : List Byte) :
    ((messageBlock b (chunkCountOf b.length - 1))[15]).toNat = ((8 * b.length) % 2 ^ 64) / 2 ^ 32 := by
  calc ((messageBlock b (chunkCountOf b.length - 1))[15]).toNat
      = (8 * b.length) % 2 ^ 64 / 256 ^ 4 % 256 ^ 4 := (messageBlock_toNat b _ _).trans (fieldNat_pad_suffix b 4 4)
    _ = ((8 * b.length) % 2 ^ 64) / 2 ^ 32 := Nat.mod_eq_of_lt (by omega)

/-- A byte of a word of a chunk is the byte of the padded message at the place of both. -/
theorem messageBlock_byte (b : List Byte) (c : Nat) {j k : Nat} (hj : j < 16) (hk : k < 4) :
    (messageBlock b c)[j].toNat / 2 ^ (8 * k) % 2 ^ 8 = ((pad b).getD (64 * c + 4 * j + k) 0).toNat := by
  calc (messageBlock b c)[j].toNat / 2 ^ (8 * k) % 2 ^ 8
      = fieldNat (((pad b).drop (64 * c + 4 * j)).take 4) k 1 := by
        rw [messageBlock_toNat, fieldNat_eq_div_mod _ k, pow_mul, fieldNat]
        rfl
    _ = ((pad b).getD (64 * c + 4 * j + k) 0).toNat := by rw [fieldNat_slice _ _ (by omega), fieldNat_one]

/-- Settles O35: words 14 and 15 are the halves of the suffix, and the marker is the byte of the padded message at the length of
the message. -/
theorem framingInTheWords : Obligations.FramingInTheWords := by
  intro b
  have hplace : 64 * (b.length / 64) + 4 * (b.length % 64 / 4) + b.length % 4 = b.length := by omega
  refine ⟨messageBlock_suffix_low b, messageBlock_suffix_high b, ?_⟩
  rw [messageBlock_byte b _ (by omega) (by omega), hplace, List.getD_eq_getElem?_getD, getElem?_length_pad]
  rfl

end Sys2Proof.Machine
end

section
/-! The round engine's units (43_round_engine.md R122 to R127, R137, R138): boolean functions, addition and rotate, the tables that the
round selects its operands from, and the register file. -/

namespace Sys2Proof.Machine

/-- F takes `c` where `b` has the bit and `d` elsewhere (R122). -/
theorem boolFn_F_getLsbD (b c d : Word) {k : Nat} (hk : k < 32) :
    (boolFn .F b c d).getLsbD k = if b.getLsbD k then c.getLsbD k else d.getLsbD k := by
  simp only [boolFn, BitVec.getLsbD_or, BitVec.getLsbD_and, BitVec.getLsbD_not, hk, decide_true, Bool.true_and]
  cases b.getLsbD k <;> simp

/-- G is F with `d` in control (R123). -/
theorem boolFn_G_eq_F (b c d : Word) : boolFn .G b c d = boolFn .F d b c := rfl

/-- Settles O27: F and G as multiplexers, H and I by their operators on a bit. -/
theorem booleanFunctionsBitByBit : Obligations.BooleanFunctionsBitByBit := by
  intro b c d k hk
  rw [boolFn_G_eq_F]
  refine ⟨boolFn_F_getLsbD b c d hk, boolFn_F_getLsbD d b c hk, ?H, ?I⟩
  case H => simp [boolFn]
  case I => simp [boolFn, hk]

/-- The low 32 bits of the exact sum (R126). -/
theorem add4_toNat (a f k m : Word) : (add4 a f k m).toNat = (a.toNat + f.toNat + k.toNat + m.toNat) % 2 ^ 32 := by
  simp only [add4, BitVec.toNat_add]
  omega

/-- Settles O28: addition of words is associative and commutative. -/
theorem fourOperandAddition : Obligations.FourOperandAddition := by
  intro a f k m
  refine ⟨add4_toNat a f k m, ?_, ?_, by omega⟩
  · rw [add4, BitVec.add_assoc, BitVec.add_assoc]
  · unfold add4
    ac_rfl

/-! ### The left rotate -/

/-- The rotate of R127 and D18 is the library's. At count 0 the right shift of the one is by 0 and of the other by 32. -/
theorem rotl32_eq_rotateLeft (x : Word) (n : Nat) : rotl32 x n = x.rotateLeft n := by
  rw [rotl32, BitVec.rotateLeft_def]
  by_cases hn : n % 32 = 0
  · simp [hn, BitVec.ushiftRight_eq_zero]
  · rw [Nat.mod_eq_of_lt (by omega : 32 - n % 32 < 32)]

theorem rotl32_toNat (x : Word) {n : Nat} (hn : n ≤ 31) :
    (rotl32 x n).toNat = (x.toNat * 2 ^ n) % 2 ^ 32 + x.toNat / 2 ^ (32 - n) := by
  have hsplit : 2 ^ 32 = 2 ^ (32 - n) * 2 ^ n := by rw [← pow_add, Nat.sub_add_cancel (by omega)]
  have hhigh : x.toNat / 2 ^ (32 - n) < 2 ^ n := Nat.div_lt_of_lt_mul (hsplit ▸ x.isLt)
  rw [rotl32_eq_rotateLeft, BitVec.toNat_rotateLeft, Nat.mod_eq_of_lt (by omega : n < 32), Nat.shiftLeft_eq, Nat.shiftRight_eq_div_pow,
    hsplit, Nat.mul_mod_mul_right, ← Nat.shiftLeft_eq, Nat.shiftLeft_add_eq_or_of_lt hhigh]

/-- Bit `k` moves to bit `(k + n) mod 32`. -/
theorem rotl32_getLsbD (x : Word) (n : Nat) {k : Nat} (hk : k < 32) : (rotl32 x n).getLsbD ((k + n) % 32) = x.getLsbD k := by
  rw [rotl32_eq_rotateLeft, BitVec.getLsbD_rotateLeft]
  by_cases hwrap : k + n % 32 < 32
  · have hto : (k + n) % 32 = k + n % 32 := by omega
    simp [hto, hwrap]
  · have hto : (k + n) % 32 = k + n % 32 - 32 := by omega
    rw [hto, decide_eq_true (by omega), cond_true, show 32 - n % 32 + (k + n % 32 - 32) = k by omega]

/-- Rotating on to 32 gives the word back. -/
theorem rotl32_rotl32 (x : Word) {n : Nat} (hn : n ≤ 32) : rotl32 (rotl32 x n) (32 - n) = x := by
  refine BitVec.eq_of_getLsbD_eq fun k hk => ?_
  have hto : ((k + n) % 32 + (32 - n)) % 32 = k := by omega
  rw [← rotl32_getLsbD x n hk, ← rotl32_getLsbD (rotl32 x n) (32 - n) (Nat.mod_lt _ (by omega)), hto]

/-- The shift amounts of a family, the cycle that R21 repeats. -/
def shiftCycle : Family → List Nat
  | .F => [7, 12, 17, 22]
  | .G => [5, 9, 14, 20]
  | .H => [4, 11, 16, 23]
  | .I => [6, 10, 15, 21]

theorem srom_toNat (i : BitVec 6) : (srom i).toNat = (shiftCycle (familyOf i)).getD (i.toNat % 4) 0 := by
  revert i
  decide

theorem srom_bounds (i : BitVec 6) : 4 ≤ (srom i).toNat ∧ (srom i).toNat ≤ 23 := by
  revert i
  decide

/-- Settles O29: by the library's rotate and by the bits. -/
theorem leftRotate : Obligations.LeftRotate := by
  refine ⟨fun x n _ hn => rotl32_toNat x hn, fun x n k => rotl32_getLsbD x n, fun x n => ?_, fun x => ?_, srom_bounds,
    fun x n _ hn => rotl32_rotl32 x (by omega)⟩
  · rw [rotl32_eq_rotateLeft, rotl32_eq_rotateLeft]
    exact BitVec.rotateLeft_mod_eq_rotateLeft.symm
  · refine BitVec.eq_of_toNat_eq ?_
    rw [rotl32_toNat x (by omega)]
    omega

/-! ### The tables -/

/-- The round of a family that reads word `g`: 1, 5, 3 and 7 times the round are inverted modulo 16 by 1, 13, 11 and 7 (R137). -/
def readingRound (fam : Family) (g : BitVec 4) : BitVec 6 :=
  match fam with
  | .F => BitVec.ofNat 6 g.toNat
  | .G => BitVec.ofNat 6 (16 + 13 * (g.toNat + 15) % 16)
  | .H => BitVec.ofNat 6 (32 + 11 * (g.toNat + 11) % 16)
  | .I => BitVec.ofNat 6 (48 + 7 * g.toNat % 16)

theorem readingRound_reads (fam : Family) (g : BitVec 4) :
    familyOf (readingRound fam g) = fam ∧ gIndex fam (readingRound fam g) = g := by
  revert g
  cases fam <;> decide

theorem readingRound_gIndex (i : BitVec 6) : readingRound (familyOf i) (gIndex (familyOf i) i) = i := by
  revert i
  decide

/-- Settles O30: the tables by evaluation; a round that reads word `g` in its family is `readingRound` of the two. -/
theorem messageWordIndexTable : Obligations.MessageWordIndexTable := by
  refine ⟨by decide, by decide, by decide, fun fam g => ⟨readingRound fam g, readingRound_reads fam g, ?_⟩⟩
  rintro j ⟨rfl, rfl⟩
  exact (readingRound_gIndex j).symm

/-! ### The register file -/

section
variable (w : Quad) (m : Block) (i : Nat)

/-- `b'_i`, the `b'` that round `i` computes from the registers before it (R138). -/
def newB : Word := (roundFn (BitVec.ofNat 6 i) (roundsFrom w m i) m).regs.b

/-- The register rotation of R135 along the rounds. -/
theorem roundsFrom_succ :
    roundsFrom w m (i + 1) = ⟨(roundsFrom w m i).d, newB w m i, (roundsFrom w m i).b, (roundsFrom w m i).c⟩ := rfl

/-- After four rounds every register holds a computed value. -/
theorem roundsFrom_add_four :
    roundsFrom w m (i + 4) = ⟨newB w m i, newB w m (i + 3), newB w m (i + 2), newB w m (i + 1)⟩ := by
  rw [roundsFrom_succ w m (i + 3), roundsFrom_succ w m (i + 2), roundsFrom_succ w m (i + 1), roundsFrom_succ w m i]

end

/-- Settles O31: round `i` is the last of the four rounds from `i - 3` on. -/
theorem registersHoldTheLastFourValues : Obligations.RegistersHoldTheLastFourValues := by
  intro w m i
  refine ⟨roundsFrom_succ w m i, fun hi => ?_, roundsFrom_add_four w m 60⟩
  obtain ⟨j, rfl⟩ := Nat.exists_eq_add_of_le' hi
  exact roundsFrom_add_four w m j

end Sys2Proof.Machine
end

section
/-! The round operations (43_round_engine.md R129 to R132): the units put together, and where the step goes next. -/

namespace Sys2Proof.Machine

/-! ### The phase and the code index -/

/-- Every operation but HLT does the same in every phase: none reads it, and each sets it. -/
theorem exec_withPhase {i : Instr} (hi : i ≠ .hlt) (s : State) (p : Phase) : exec i { s with ph := p } = exec i s := by
  cases i with
  | hlt => exact absurd rfl hi
  | pre => rfl
  | cst => rfl
  | cen => rfl
  | don => rfl
  | rndF k => rfl
  | rndG k => rfl
  | rndH k => rfl
  | rndI k => rfl

/-- Settles O26: the phase by `exec_withPhase`; the index in the step code of a round operation is not read. -/
theorem operationsIgnorePhaseAndCodeIndex : Obligations.OperationsIgnorePhaseAndCodeIndex :=
  ⟨fun _ s p hi => exec_withPhase hi s p, fun _ _ _ => ⟨rfl, rfl, rfl, rfl⟩⟩

/-! ### The round's values -/

/-- The message-word index before its reduction modulo 16 (R122 to R125). -/
def gFormula : Family → Nat → Nat
  | .F, i => i
  | .G, i => 5 * i + 1
  | .H, i => 3 * i + 5
  | .I, i => 7 * i

theorem gIndex_toNat (fam : Family) (i : BitVec 6) : (gIndex fam i).toNat = gFormula fam i.toNat % 16 := by
  cases fam <;> exact Nat.mod_mod _ 16

theorem gIndex_eq (fam : Family) (i : BitVec 6) : gIndex fam i = BitVec.ofNat 4 (gFormula fam i.toNat) :=
  BitVec.eq_of_toNat_eq (gIndex_toNat fam i)

theorem rotl32_srom (x : Word) (i : BitVec 6) :
    rotl32 x (srom i).toNat =
      BitVec.ofNat 32 ((x.toNat * 2 ^ (srom i).toNat) % 2 ^ 32 + x.toNat / 2 ^ (32 - (srom i).toNat)) := by
  obtain ⟨-, hle⟩ := srom_bounds i
  rw [← rotl32_toNat x (by omega), BitVec.ofNat_toNat, BitVec.setWidth_eq]

theorem messageWord_ofNat (m : Block) (n : Nat) : messageWord m (BitVec.ofNat 4 n) = m[n % 16] := rfl

/-- The values of a round with boolean result `f`, as R126 to R128 and R135 write them; `familyRound_eq` ties them to the model's. -/
def roundValues (fam : Family) (i : BitVec 6) (w : Quad) (m : Block) (f : Word) : RoundResult :=
  let mword := m[gFormula fam i.toNat % 16]
  let sum := w.a + f + krom i + mword
  let rotated := BitVec.ofNat 32 ((sum.toNat * 2 ^ (srom i).toNat) % 2 ^ 32 + sum.toNat / 2 ^ (32 - (srom i).toNat))
  { fam, f, g := BitVec.ofNat 4 (gFormula fam i.toNat), mword, s := srom i, k := krom i, sum, rotated,
    regs := ⟨w.d, w.b + rotated, w.b, w.c⟩ }

theorem familyRound_eq {fam : Family} {w : Quad} {f : Word} (hf : boolFn fam w.b w.c w.d = f) (i : BitVec 6) (m : Block) :
    familyRound fam i w m = roundValues fam i w m f := by
  simp only [familyRound, roundValues, hf, gIndex_eq, messageWord_ofNat, rotl32_srom, add4, rotateRegs]

/-! ### The step -/

/-- The next position as one update (R151). -/
theorem nextRound_eq (s : State) :
    nextRound s = { s with
      ph := if s.ridx.toNat < 63 then .rnd else .cen
      ridx := if s.ridx.toNat < 63 then s.ridx + 1 else 0 } := by
  unfold nextRound
  split <;> rfl

/-- The state after a round with result `r`, with the sequencer at round `i` of phase `p`. -/
def afterRound (s : State) (r : RoundResult) (p : Phase) (i : BitVec 6) : State :=
  { s with
    w := r.regs
    trace := Cells.write s.trace s.evn (.round (roundEvent s r))
    evn := s.evn + 1
    ph := p
    ridx := i }

section
variable {fam : Family} {s : State} {f : Word} (hf : boolFn fam s.w.b s.w.c s.w.d = f)
include hf

theorem roundStep_eq_afterRound :
    roundStep fam s = .next (afterRound s (roundValues fam s.ridx s.w s.m f)
      (if s.ridx.toNat < 63 then .rnd else .cen) (if s.ridx.toNat < 63 then s.ridx + 1 else 0)) := by
  rw [roundStep_eq, familyRound_eq hf, nextRound_eq]
  rfl

/-- Before round 63 the step goes on to the next round. -/
theorem roundStep_of_lt (hph : s.ph = .rnd) (hmore : s.ridx.toNat < 63) :
    roundStep fam s = .next (afterRound s (roundValues fam s.ridx s.w s.m f) s.ph (s.ridx + 1)) := by
  rw [roundStep_eq_afterRound hf, if_pos hmore, if_pos hmore, hph]

end

/-- The shift amounts of a family's rounds (R21). -/
theorem srom_toNat_of_owns {fam : Family} {i : BitVec 6} (h : fam.owns i = true) :
    (srom i).toNat = (shiftCycle fam).getD (i.toNat % 4) 0 :=
  (owns_iff fam i).mp h ▸ srom_toNat i

/-- Settles O13: the rounds of F are below 63. -/
theorem rndFComputesTheRound : Obligations.RndFComputesTheRound := by
  intro s hph hhi
  have howns : Family.owns .F s.ridx = true := beq_iff_eq.mpr (by omega)
  exact ⟨srom_toNat_of_owns howns, roundStep_of_lt (fam := .F) rfl hph (by omega)⟩

/-- Settles O14: so are the rounds of G. -/
theorem rndGComputesTheRound : Obligations.RndGComputesTheRound := by
  intro s hph hlo hhi
  have howns : Family.owns .G s.ridx = true := beq_iff_eq.mpr (by omega)
  exact ⟨srom_toNat_of_owns howns, roundStep_of_lt (fam := .G) rfl hph (by omega)⟩

/-- Settles O15: so are the rounds of H. -/
theorem rndHComputesTheRound : Obligations.RndHComputesTheRound := by
  intro s hph hlo hhi
  have howns : Family.owns .H s.ridx = true := beq_iff_eq.mpr (by omega)
  exact ⟨srom_toNat_of_owns howns, roundStep_of_lt (fam := .H) rfl hph (by omega)⟩

/-- The complement in I written as an exclusive or with all ones (R125). -/
theorem boolFn_I_eq (b c d : Word) : boolFn .I b c d = c ^^^ (b ||| (d ^^^ 0xFFFFFFFF)) := by
  rw [boolFn, show (0xFFFFFFFF : Word) = BitVec.allOnes 32 from rfl, BitVec.xor_allOnes]

/-- Settles O16: I has round 63 too, after which the chunk ends. -/
theorem rndIComputesTheRound : Obligations.RndIComputesTheRound := by
  intro s hph hlo
  have howns : Family.owns .I s.ridx = true := beq_iff_eq.mpr (by omega)
  exact ⟨srom_toNat_of_owns howns, roundStep_eq_afterRound (fam := .I) (boolFn_I_eq _ _ _)⟩

end Sys2Proof.Machine
end

section
/-! The digest of a run (43_round_engine.md R120, 70_reset_and_hazards.md R214): what `H`, `M` and `W` hold at each position of the
sequencer, as a function of the message, is kept by every step. -/

namespace Sys2Proof.Machine

/-- The chunks of a padded message are the slices of its bytes. -/
theorem chunkBlock_of_readSeq {pmsg : Memory} {pm : List Byte} {n c : Nat} (h : Cells.readSeq pmsg 0 n = some pm)
    (hc : c < pm.length / 64) : chunkBlock pmsg c = some (decodeBlock (chunkSlice pm c)) := by
  obtain ⟨hlen, hread⟩ := (Cells.readSeq_eq_some _ _ _ _).mp h
  refine (chunkBlock_eq_some _ _ _).mpr
    ⟨_, (Cells.readSeq_eq_some _ _ _ _).mpr ⟨length_chunkSlice hc, fun j hj => ?_⟩, rfl⟩
  rw [chunkSlice, List.getElem?_take_of_lt hj, List.getElem?_drop, ← hread _ (by omega), Nat.zero_add]

/-- `M` holds the words of chunk `c`, and `W` the registers after `n` of its rounds. -/
def HoldsRounds (b : List Byte) (c n : Nat) (s : State) : Prop := s.m = messageBlock b c ∧ s.w = regsBefore b c n

/-- What the position of the sequencer says of `H`, `M` and `W` in a run on message `b`. -/
def PositionHolds (b : List Byte) (s : State) : Prop :=
  match s.ph with
  | .idle => True
  | .pre => True
  | .cst => s.h = hashAfter b s.cidx
  | .rnd => s.h = hashAfter b s.cidx ∧ HoldsRounds b s.cidx s.ridx.toNat s
  | .cen => s.h = hashAfter b s.cidx ∧ HoldsRounds b s.cidx 64 s
  | .don => s.h = hashAfter b s.nchunk ∧ HoldsRounds b (s.nchunk - 1) 64 s
  | .halt => s.h = hashAfter b s.nchunk ∧ HoldsRounds b (s.nchunk - 1) 64 s

section
variable {b : List Byte} {s : State}

theorem positionHolds_cst (hph : s.ph = .cst) : PositionHolds b s ↔ s.h = hashAfter b s.cidx := by
  rw [PositionHolds, hph]

theorem positionHolds_rnd (hph : s.ph = .rnd) :
    PositionHolds b s ↔ s.h = hashAfter b s.cidx ∧ HoldsRounds b s.cidx s.ridx.toNat s := by
  rw [PositionHolds, hph]

theorem positionHolds_cen (hph : s.ph = .cen) :
    PositionHolds b s ↔ s.h = hashAfter b s.cidx ∧ HoldsRounds b s.cidx 64 s := by
  rw [PositionHolds, hph]

theorem positionHolds_end (hph : s.ph = .don ∨ s.ph = .halt) :
    PositionHolds b s ↔ s.h = hashAfter b s.nchunk ∧ HoldsRounds b (s.nchunk - 1) 64 s := by
  rcases hph with hph | hph <;> rw [PositionHolds, hph]

end

/-- A state of a run on message `b` with no host move scheduled. -/
structure Computes (b : List Byte) (s : State) : Prop where
  inv : Inv s
  moves : s.moves = []
  message : readMessage s = some b
  position : PositionHolds b s

section
variable {b : List Byte} {s t : State}

/-- The words of the chunk in progress are the message's. -/
theorem Computes.chunkBlock_eq (h : Computes b s) (hp : padded s = true) (hc : s.cidx < s.nchunk) :
    chunkBlock s.pmsg s.cidx = some (messageBlock b s.cidx) := by
  obtain ⟨hplen, -⟩ := h.inv.geometry
  have hread := h.inv.padding hp b h.message
  obtain ⟨hlen, -⟩ := (Cells.readSeq_eq_some _ _ _ _).mp hread
  exact chunkBlock_of_readSeq hread (by omega)

/-- Round `RIDX` takes the registers before it to those after it. -/
theorem familyRound_regs_of_holdsRounds {c : Nat} (h : HoldsRounds b c s.ridx.toNat s) :
    (familyRound (familyOf s.ridx) s.ridx s.w s.m).regs = regsBefore b c (s.ridx.toNat + 1) := by
  obtain ⟨hm, hw⟩ := h
  rw [regsBefore, roundsFrom, BitVec.ofNat_toNat, BitVec.setWidth_eq, hm, hw]
  rfl

/-- The fold after round 63 takes the hash to the next chunk's (R120, R134). -/
theorem hashAfter_succ (b : List Byte) (c : Nat) :
    hashAfter b (c + 1) = foldQuad (hashAfter b c) (regsBefore b c 64) := by
  rw [hashAfter, compress, regsBefore]

theorem Computes.after_pre (h : Computes b s) (hph : s.ph = .pre) (heff : Effect .pre s t) : PositionHolds b t := by
  cases heff with
  | round hfam => cases hfam
  | pre hb => exact h.inv.untouched (by rw [padded, hph])

theorem Computes.after_cst (h : Computes b s) (hph : s.ph = .cst) (heff : Effect .cst s t) : PositionHolds b t := by
  have hh := (positionHolds_cst hph).mp h.position
  have hcidx : s.cidx < s.nchunk := by simpa [inChunk, hph] using h.inv.chunkIndex
  have hblock := h.chunkBlock_eq (by rw [padded, hph]) hcidx
  cases heff with
  | round hfam => cases hfam
  | cst hwords => exact ⟨hh, Option.some.inj (hwords.symm.trans hblock), hh⟩

/-- A round adds one to the rounds done, in the same chunk. -/
theorem Computes.after_round (h : Computes b s) (hph : s.ph = .rnd) (heff : Effect (rndInstr s.ridx) s t) : PositionHolds b t := by
  obtain ⟨hh, hrounds⟩ := (positionHolds_rnd hph).mp h.position
  have hregs := familyRound_regs_of_holdsRounds hrounds
  obtain ⟨hm, -⟩ := hrounds
  cases (roundStep_eq _ s).symm.trans ((exec_rndInstr _ s).symm.trans (exec_of_effect heff))
  by_cases hmore : s.ridx.toNat < 63
  · have hnext : (s.ridx.toNat + 1) % 64 = s.ridx.toNat + 1 := by omega
    refine (positionHolds_rnd (by simp [hmore])).mpr ?_
    simpa [HoldsRounds, hmore, hnext, hh, hregs] using hm
  · have hlast : s.ridx.toNat + 1 = 64 := by omega
    refine (positionHolds_cen (by simp [hmore])).mpr ?_
    simpa [HoldsRounds, hh, hregs, hlast] using hm

/-- CEN folds `W` into `H` and goes to the next chunk, or after the last one to DON. -/
theorem Effect.cen_eq (h : Effect .cen s t) :
    t.h = foldQuad s.h s.w ∧ t.ph = (if s.cidx + 1 < s.nchunk then .cst else .don) ∧
    t.cidx = if s.cidx + 1 < s.nchunk then s.cidx + 1 else 0 := by
  cases h with
  | round hfam => cases hfam
  | cen => exact ⟨nextChunk_h _, nextChunk_ph _, nextChunk_cidx _⟩

/-- The fold adds one to the chunks done; after the last chunk that is all of them. -/
theorem Computes.after_cen (h : Computes b s) (hph : s.ph = .cen) (heff : Effect .cen s t) : PositionHolds b t := by
  obtain ⟨hh, hm, hw⟩ := (positionHolds_cen hph).mp h.position
  have hcidx : s.cidx < s.nchunk := by simpa [inChunk, hph] using h.inv.chunkIndex
  obtain ⟨hfold, hph', hcidx'⟩ := heff.cen_eq
  rw [hh, hw, ← hashAfter_succ] at hfold
  by_cases hmore : s.cidx + 1 < s.nchunk
  · rw [if_pos hmore] at hph' hcidx'
    exact (positionHolds_cst hph').mpr (by rw [hfold, hcidx'])
  · rw [if_neg hmore] at hph'
    have hlast : t.nchunk = s.cidx + 1 := (heff.keepsPadding nofun).nchunk.trans (by omega)
    rw [positionHolds_end (.inl hph'), HoldsRounds, hlast, Nat.add_sub_cancel, heff.m_eq nofun, heff.w_eq nofun rfl]
    exact ⟨hfold, hm, hw⟩

theorem Computes.after_don (h : Computes b s) (hph : s.ph = .don) (heff : Effect .don s t) : PositionHolds b t := by
  cases heff with
  | round hfam => cases hfam
  | don => exact (positionHolds_end (.inl hph)).mp h.position

/-- A move of the sequencer keeps what its position says. -/
theorem Computes.position_after (h : Computes b s) (hstep : engineStep s = .next t) : PositionHolds b t := by
  rw [engineStep_eq] at hstep
  cases hph : s.ph with rw [hph] at hstep
  | idle => cases hstep; exact h.position
  | pre => exact h.after_pre hph (effect_of_exec hstep)
  | cst => exact h.after_cst hph (effect_of_exec hstep)
  | rnd => exact h.after_round hph (effect_of_exec ((exec_rndInstr s.ridx s).trans hstep))
  | cen => exact h.after_cen hph (effect_of_exec hstep)
  | don => exact h.after_don hph (effect_of_exec hstep)
  | halt => cases hstep; exact h.position

theorem Computes.step (h : Computes b s) (hstep : step s = .next t) : Computes b t := by
  rw [step_of_moves_nil h.moves] at hstep
  obtain ⟨i, heff⟩ := effect_of_engineStep hstep
  have hread : readMessage t = readMessage s := heff.emits_or_eq.elim Emits.readMessage_eq fun heq => by rw [heq]
  exact ⟨h.inv.after_engineStep hstep, heff.moves_eq.trans h.moves, hread.trans h.message, h.position_after hstep⟩

theorem Computes.runs {k : Nat} (h : Computes b s) (hruns : Machine.runs k s t) : Computes b t := by
  induction k generalizing s with
  | zero => cases hruns; exact h
  | succ k ih =>
    obtain ⟨u, hstep, hrest⟩ := runs_succ_iff.mp hruns
    exact ih (h.step hstep) hrest

/-- Every state of a run from the launch premises, but for the form of `MSG`. -/
theorem LaunchPremises.computes {k : Nat} (h : LaunchPremises b s) (hmoves : s.moves = []) (hruns : Machine.runs k s t) :
    Computes b (Machine.withMsg (messageCells b) t) := by
  have hread (a : Nat) : Cells.read (messageCells b) a = Cells.read s.msg a :=
    (messageCells_read b a).trans (h.message a).symm
  have hcanon : LaunchPremises b (Machine.withMsg (messageCells b) s) := h.withMsg hread
  obtain ⟨hph, -, -⟩ := hcanon.phase
  have hstart : Computes b (Machine.withMsg (messageCells b) s) := {
    inv := hcanon.inv (Cells.wf_writeSeq [] 0 b Cells.wf_nil)
    moves := hmoves
    message := (readMessage_eq_some _ b).mpr ⟨hcanon.length.symm, fun k _ => hcanon.message k⟩
    position := by rw [PositionHolds, hph]; trivial }
  exact hstart.runs (runs_withMsg hread hmoves hruns)

/-- The registers of R214 in the state that ends a run. -/
theorem Computes.halted (h : Computes b s) (hph : s.ph = .halt) :
    s.nchunk = chunkCountOf b.length ∧ s.h = hashAfter b s.nchunk ∧ s.digest = md5 b ∧ HoldsRounds b (s.nchunk - 1) 64 s := by
  obtain ⟨hh, hrounds⟩ := (positionHolds_end (.inr hph)).mp h.position
  obtain ⟨hlen, -⟩ := (readMessage_eq_some s b).mp h.message
  obtain ⟨-, hcount⟩ := h.inv.geometry
  rw [padded, hph, if_pos rfl, ← hlen] at hcount
  obtain ⟨hdigest, -⟩ := h.inv.finished hph
  exact ⟨hcount, hh, by rw [hdigest, hh, hcount, md5], hrounds⟩

end

/-- Settles O55: the run ends in `HALT` by its event count; there the position gives the registers and the invariant the rest. -/
theorem runComputesTheDigest : Obligations.RunComputesTheDigest := by
  intro b s h hmoves
  obtain ⟨t, hruns, ht, hevn⟩ := h.runs hmoves le_rfl
  have hph : t.ph = .halt := ht.halted hevn
  have hcomp : Computes b (withMsg (messageCells b) t) := h.computes (t := withMsg s.msg t) hmoves hruns
  obtain ⟨hnchunk, hh, hdigest, hm, hw⟩ := hcomp.halted hph
  have hcidx : t.cidx = 0 := by simpa [inChunk, hph] using ht.inv.chunkIndex
  have hridx : t.ridx = 0 := ht.inv.roundIndex (by rw [hph]; nofun)
  have hevents : t.evn = 2 + 66 * t.nchunk := by rw [ht.inv.events, eventCount, hph]
  obtain ⟨hplen, -⟩ := ht.inv.geometry
  have hstatus : status t = 0x2 := by simp [status, busy, done, hph, ht.inv.err_eq_false ht.started]
  have hpadded := hcomp.inv.padding (show padded t = true by rw [padded, hph]) b hcomp.message
  exact ⟨withMsg s.msg t, hruns, hph, hcidx, hridx, hevents, hnchunk, hplen, ht.mlen, hh, hdigest, hstatus, hw, hm, hpadded, rfl⟩

end Sys2Proof.Machine
end

section
/-! The trace of a run (44_trace_recorder.md R160, R162): the event at each trace index as an equation of `messageEvent`, and that the
event a step of the run writes is that one. -/

namespace Sys2Proof.Machine

/-! ### The event at each trace index -/

section
variable (b : List Byte)

theorem messageEvent_pre :
    messageEvent b 0 = .preprocess
      { origBytes := b.length, origBits := 8 * b.length, paddedBytes := (pad b).length, paddedBits := 8 * (pad b).length,
        bytesAdded := (pad b).length - b.length, chunkCount := (pad b).length / 64, initDigest := fmt ivrom } := by
  rw [pad_length_div, pad_length]
  rfl

theorem messageEvent_don :
    messageEvent b (1 + 66 * chunkCountOf b.length) =
      .done { hash := hashAfter b (chunkCountOf b.length), digest := fmt (hashAfter b (chunkCountOf b.length)) } := by
  unfold messageEvent
  rw [if_neg (by omega), if_pos rfl]

theorem messageEvent_cst {c : Nat} (hc : c < chunkCountOf b.length) :
    messageEvent b (1 + 66 * c) =
      .chunkStart { chunk := c, words := messageBlock b c, hashIn := hashAfter b c, regs := hashAfter b c } := by
  have hchunk : (1 + 66 * c - 1) / 66 = c := by omega
  unfold messageEvent
  rw [if_neg (by omega), if_neg (by omega), if_pos (by omega), hchunk]

theorem messageEvent_cen (c : Nat) :
    messageEvent b (1 + (66 * c + 65)) =
      .chunkEnd
        { chunk := c, hashBefore := hashAfter b c, regsFinal := regsBefore b c 64, hashAfter := hashAfter b (c + 1),
          digest := fmt (hashAfter b (c + 1)) } := by
  have hchunk : (1 + (66 * c + 65) - 1) / 66 = c := by omega
  unfold messageEvent
  rw [if_neg (by omega), if_neg (by omega), if_neg (by omega), if_pos (by omega), hchunk]

theorem messageEvent_round (c : Nat) {i : Nat} (hi : i < 64) :
    messageEvent b (1 + (66 * c + (1 + i))) = .round (messageRound b c i) := by
  have hchunk : (1 + (66 * c + (1 + i)) - 1) / 66 = c := by omega
  have hround : (1 + (66 * c + (1 + i)) - 1) % 66 - 1 = i := by omega
  unfold messageEvent
  rw [if_neg (by omega), if_neg (by omega), if_neg (by omega), if_neg (by omega), hchunk, hround]

end

/-! ### The event that a step writes -/

/-- The step from `s` to `t` writes the event of the message at trace index `EVN`. -/
def WritesMessageEvent (b : List Byte) (s t : State) : Prop :=
  t.trace = Cells.write s.trace s.evn (messageEvent b s.evn)

section
variable {b : List Byte} {s t : State}

theorem Computes.mlen_eq (h : Computes b s) : s.mlen = b.length := by
  obtain ⟨hlen, -⟩ := (readMessage_eq_some s b).mp h.message
  exact hlen.symm

theorem Computes.nchunk_eq (h : Computes b s) (hp : padded s = true) : s.nchunk = chunkCountOf b.length := by
  obtain ⟨-, hcount⟩ := h.inv.geometry
  rw [hcount, if_pos hp, h.mlen_eq]

theorem Computes.writes_pre (h : Computes b s) (hph : s.ph = .pre) (heff : Effect .pre s t) : WritesMessageEvent b s t := by
  have hevn : s.evn = 0 := by rw [h.inv.events, eventCount, hph]
  have hh : s.h = ivrom := h.inv.untouched (by rw [padded, hph])
  have hevent : messageEvent b s.evn = .preprocess (preprocessEvent s (pad b)) := by
    rw [hevn, messageEvent_pre, preprocessEvent, h.mlen_eq, hh]
  cases heff with
  | round hfam => cases hfam
  | pre hb =>
    obtain rfl := Option.some.inj (h.message.symm.trans hb)
    rw [WritesMessageEvent, hevent]
    rfl

theorem Computes.writes_cst (h : Computes b s) (hph : s.ph = .cst) (heff : Effect .cst s t) : WritesMessageEvent b s t := by
  have hevn : s.evn = 1 + 66 * s.cidx := by rw [h.inv.events, eventCount, hph]
  have hp : padded s = true := by rw [padded, hph]
  have hcidx : s.cidx < s.nchunk := by simpa [inChunk, hph] using h.inv.chunkIndex
  have hh := (positionHolds_cst hph).mp h.position
  have hevent : messageEvent b s.evn = .chunkStart (chunkStartEvent s (messageBlock b s.cidx)) := by
    rw [hevn, messageEvent_cst b (h.nchunk_eq hp ▸ hcidx), chunkStartEvent, hh]
  cases heff with
  | round hfam => cases hfam
  | cst hwords =>
    obtain rfl := Option.some.inj (hwords.symm.trans (h.chunkBlock_eq hp hcidx))
    rw [WritesMessageEvent, hevent]
    rfl

/-- The Round event of a state that holds the registers before round `RIDX` (R156, R161). -/
theorem roundEvent_eq_messageRound (hh : s.h = hashAfter b s.cidx) (hrounds : HoldsRounds b s.cidx s.ridx.toNat s) :
    roundEvent s (familyRound (familyOf s.ridx) s.ridx s.w s.m) = messageRound b s.cidx s.ridx.toNat := by
  have hregs := familyRound_regs_of_holdsRounds hrounds
  obtain ⟨hm, hw⟩ := hrounds
  rw [hm, hw] at hregs
  simp only [messageRound, roundFn, roundEvent, previewDigest, BitVec.ofNat_toNat, BitVec.setWidth_eq, hh, hm, hw, hregs]

theorem Computes.writes_round (h : Computes b s) (hph : s.ph = .rnd) (heff : Effect (rndInstr s.ridx) s t) :
    WritesMessageEvent b s t := by
  have hevn : s.evn = 1 + 66 * s.cidx + (1 + s.ridx.toNat) := by rw [h.inv.events, eventCount, hph]
  obtain ⟨hh, hrounds⟩ := (positionHolds_rnd hph).mp h.position
  have hevent : messageEvent b s.evn = .round (roundEvent s (familyRound (familyOf s.ridx) s.ridx s.w s.m)) := by
    rw [hevn, Nat.add_assoc, messageEvent_round b s.cidx s.ridx.isLt, roundEvent_eq_messageRound hh hrounds]
  cases (roundStep_eq _ s).symm.trans ((exec_rndInstr _ s).symm.trans (exec_of_effect heff))
  rw [WritesMessageEvent, hevent]
  exact nextRound_trace _

theorem Computes.writes_cen (h : Computes b s) (hph : s.ph = .cen) (heff : Effect .cen s t) : WritesMessageEvent b s t := by
  have hevn : s.evn = 1 + 66 * s.cidx + 65 := by rw [h.inv.events, eventCount, hph]
  obtain ⟨hh, -, hw⟩ := (positionHolds_cen hph).mp h.position
  have hevent : messageEvent b s.evn = .chunkEnd (chunkEndEvent s (foldQuad s.h s.w)) := by
    rw [hevn, Nat.add_assoc, messageEvent_cen, hashAfter_succ, chunkEndEvent, hh, hw]
  cases heff with
  | round hfam => cases hfam
  | cen =>
    rw [WritesMessageEvent, hevent]
    exact nextChunk_trace _

theorem Computes.writes_don (h : Computes b s) (hph : s.ph = .don) (heff : Effect .don s t) : WritesMessageEvent b s t := by
  have hevn : s.evn = 1 + 66 * s.nchunk := by rw [h.inv.events, eventCount, hph]
  have hn : s.nchunk = chunkCountOf b.length := h.nchunk_eq (by rw [padded, hph])
  obtain ⟨hh, -⟩ := (positionHolds_end (.inl hph)).mp h.position
  have hevent : messageEvent b s.evn = .done { hash := s.h, digest := fmt s.h } := by
    rw [hevn, hh, hn, messageEvent_don]
  cases heff with
  | round hfam => cases hfam
  | don =>
    rw [WritesMessageEvent, hevent]
    rfl

/-- A move of the sequencer writes the event of the message at `EVN`, or changes nothing. -/
theorem Computes.writes_or_eq (h : Computes b s) (hstep : engineStep s = .next t) : WritesMessageEvent b s t ∨ t = s := by
  rw [engineStep_eq] at hstep
  cases hph : s.ph with rw [hph] at hstep
  | idle => cases hstep; exact .inr rfl
  | pre => exact .inl (h.writes_pre hph (effect_of_exec hstep))
  | cst => exact .inl (h.writes_cst hph (effect_of_exec hstep))
  | rnd => exact .inl (h.writes_round hph (effect_of_exec ((exec_rndInstr s.ridx s).trans hstep)))
  | cen => exact .inl (h.writes_cen hph (effect_of_exec hstep))
  | don => exact .inl (h.writes_don hph (effect_of_exec hstep))
  | halt => cases hstep; exact .inr rfl

end

/-! ### The trace of a run -/

/-- The slots below `EVN` hold the message's events. -/
def TraceHolds (b : List Byte) (s : State) : Prop := ∀ p, p < s.evn → Cells.read s.trace p = some (messageEvent b p)

section
variable {b : List Byte} {s t : State}

theorem TraceHolds.step (htrace : TraceHolds b s) (h : Computes b s) (hstep : step s = .next t) : TraceHolds b t := by
  rw [step_of_moves_nil h.moves] at hstep
  obtain ⟨i, heff⟩ := effect_of_engineStep hstep
  rcases heff.emits_or_eq with hemit | rfl
  · rcases h.writes_or_eq hstep with hwrites | rfl
    · intro p hp
      rw [hwrites, Cells.read_write]
      split
      case isTrue heq => rw [heq]
      case isFalse hne =>
        have := hemit.evn
        exact htrace p (by omega)
    · exact htrace
  · exact htrace

theorem TraceHolds.runs {k : Nat} (htrace : TraceHolds b s) (h : Computes b s) (hruns : Machine.runs k s t) : TraceHolds b t := by
  induction k generalizing s with
  | zero => cases hruns; exact htrace
  | succ k ih =>
    obtain ⟨u, hstep, hrest⟩ := runs_succ_iff.mp hruns
    exact ih (htrace.step h hstep) (h.step hstep) hrest

/-- Every state of a run from the launch premises holds the message's events so far; the form of `MSG` does not matter to them. -/
theorem LaunchPremises.traceHolds {k : Nat} (h : LaunchPremises b s) (hmoves : s.moves = []) (hruns : Machine.runs k s t) :
    TraceHolds b t := by
  have hread (a : Nat) : Cells.read (messageCells b) a = Cells.read s.msg a :=
    (messageCells_read b a).trans (h.message a).symm
  obtain ⟨hevn, -⟩ := h.counters
  have hstart : TraceHolds b (Machine.withMsg (messageCells b) s) := fun p (hp : p < s.evn) => by omega
  exact hstart.runs (t := Machine.withMsg (messageCells b) t) (h.computes (k := 0) hmoves rfl) (runs_withMsg hread hmoves hruns)

end

/-- Settles O56: the slots below `EVN` hold the message's events, and by the invariant no other slot holds anything. -/
theorem runLeavesTheMessagesTrace : Obligations.RunLeavesTheMessagesTrace := by
  intro b s h hmoves
  obtain ⟨t, hruns, ht, hevn⟩ := h.runs hmoves le_rfl
  have htrace : TraceHolds b t := h.traceHolds (t := withMsg s.msg t) hmoves hruns
  refine ⟨withMsg s.msg t, hruns, fun p => ?_⟩
  show Cells.read t.trace p = _
  split
  case isTrue hp => exact htrace p (hevn ▸ hp)
  case isFalse hp => simpa using mt (ht.inv.traceRange p).mp (hevn ▸ hp)

end Sys2Proof.Machine
end

section
/-! What the memories hold when a run is over (44_trace_recorder.md R164, R165). A memory in its canonical form is determined by what
its indices read as, so each memory is a function of the message alone. -/

namespace Sys2Proof.Machine

/-! ### The canonical form is unique -/

section
variable {α : Type} {m m' : Cells α}

theorem Cells.read_eq_none_of_lt {k : Nat} (h : ∀ a ∈ m.map Prod.fst, k < a) : Cells.read m k = none := by
  induction m with
  | nil => rfl
  | cons c rest ih =>
    rw [List.map_cons, List.forall_mem_cons] at h
    obtain ⟨hc, hrest⟩ := h
    rw [Cells.read, if_neg hc.ne, ih hrest]

/-- A canonical memory holds an element at an index exactly when the pair is listed. -/
theorem Cells.mem_iff_read (h : Cells.wf m) {k : Nat} {v : α} : (k, v) ∈ m ↔ Cells.read m k = some v := by
  induction m with
  | nil => simp
  | cons c rest ih =>
    obtain ⟨j, u⟩ := c
    rw [Cells.wf, List.map_cons, List.pairwise_cons] at h
    obtain ⟨hj, hrest⟩ := h
    rw [List.mem_cons, ih hrest, Cells.read, Prod.mk.injEq]
    split
    case isTrue heq =>
      subst heq
      simp [Cells.read_eq_none_of_lt hj, eq_comm]
    case isFalse hne => simp [hne]

/-- Canonical memories that read the same are equal. -/
theorem Cells.ext_of_wf (h : Cells.wf m) (h' : Cells.wf m') (hread : ∀ k, Cells.read m k = Cells.read m' k) : m = m' := by
  have hp := List.pairwise_map.mp h
  have hp' := List.pairwise_map.mp h'
  have hmem : ∀ c, c ∈ m ↔ c ∈ m' := fun ⟨k, v⟩ => by rw [mem_iff_read h, mem_iff_read h', hread]
  have hnodup : m.Nodup := hp.imp fun hlt heq => hlt.ne (congrArg Prod.fst heq)
  have hnodup' : m'.Nodup := hp'.imp fun hlt heq => hlt.ne (congrArg Prod.fst heq)
  refine ((List.perm_ext_iff_of_nodup hnodup hnodup').mpr hmem).eq_of_pairwise (fun c d _ _ hlt hgt => ?_) hp hp'
  exact absurd hlt hgt.not_gt

/-- A canonical memory that holds exactly the elements of `vs` is the one that writing `vs` gives. -/
theorem Cells.eq_writeSeq (h : Cells.wf m) (vs : List α) (hread : ∀ k, Cells.read m k = vs[k]?) :
    m = Cells.writeSeq [] 0 vs := by
  refine Cells.ext_of_wf h (Cells.wf_writeSeq [] 0 vs Cells.wf_nil) fun k => ?_
  rw [hread, Cells.read_writeSeq, Cells.read_nil]
  split
  · rfl
  · rw [List.getElem?_eq_none (by omega)]

end

/-- In a covered space that reads back as `vs` every index reads as in `vs`. -/
theorem Cells.Covers.read_eq {α : Type} {m : Cells α} {n : Nat} {vs : List α} (hcovers : Cells.Covers m n)
    (hseq : Cells.readSeq m 0 n = some vs) (k : Nat) : Cells.read m k = vs[k]? := by
  obtain ⟨hlen, hread⟩ := (Cells.readSeq_eq_some _ _ _ _).mp hseq
  by_cases hk : k < n
  · rw [← hread k hk, Nat.zero_add]
  · rw [List.getElem?_eq_none (by omega)]
    simpa using mt (hcovers k).mp hk

/-! ### Runs as a function of the state they start in -/

theorem runs_unique {k : Nat} {s t u : State} (ht : runs k s t) (hu : runs k s u) : t = u :=
  Host.Outcome.next.inj (ht.symm.trans hu)

theorem Inv.runs {k : Nat} {s t : State} (h : Inv s) (hruns : Machine.runs k s t) : Inv t := by
  induction k generalizing s with
  | zero => cases hruns; exact h
  | succ k ih =>
    obtain ⟨u, hstep, hrest⟩ := runs_succ_iff.mp hruns
    exact ih (everyStepKeepsTheInvariant s u h hstep) hrest

/-! ### The end of a run -/

/-- The events of a run on message `b`, in order (R160). -/
def messageTrace (b : List Byte) : List Event := (List.range (runLength b)).map (messageEvent b)

theorem messageTrace_getElem? (b : List Byte) (p : Nat) :
    (messageTrace b)[p]? = if p < runLength b then some (messageEvent b p) else none := by
  rw [messageTrace, List.getElem?_map]
  split
  case isTrue hp => rw [List.getElem?_range hp, Option.map_some]
  case isFalse hp => rw [List.getElem?_eq_none (by simpa using hp), Option.map_none]

/-- What the host can read after a run on message `b`, as a function of `b`. -/
structure EndsRun (b : List Byte) (u : State) : Prop where
  ph : u.ph = .halt
  h : u.h = hashAfter b (chunkCountOf b.length)
  digest : u.digest = md5 b
  msg : u.msg = messageCells b
  pmsg : u.pmsg = Cells.writeSeq [] 0 (pad b)
  trace : u.trace = Cells.writeSeq [] 0 (messageTrace b)

/-- A launched engine ends its run with the message's values, whatever state it was launched in. -/
theorem launched_endsRun (b : List Byte) {s : State} (hmoves : s.moves = []) :
    ∃ u, runs (runLength b) (launched b s) u ∧ EndsRun b u := by
  have hlaunch : LaunchPremises b (launched b s) := launched_premises b s
  obtain ⟨u, hruns, hph, -, -, -, hnchunk, -, -, hh, hdigest, -, -, -, hpmsg, hmsg⟩ :=
    runComputesTheDigest b (launched b s) hlaunch hmoves
  obtain ⟨u', hruns', htrace⟩ := runLeavesTheMessagesTrace b (launched b s) hlaunch hmoves
  obtain rfl := runs_unique hruns hruns'
  have hinv : Inv u := (launched_inv b s).runs hruns
  obtain ⟨-, hpmsg_wf, htrace_wf⟩ := hinv.canonical
  exact ⟨u, hruns, {
    ph := hph
    h := hnchunk ▸ hh
    digest := hdigest
    msg := hmsg
    pmsg := Cells.eq_writeSeq hpmsg_wf _ (hinv.pmsgRange.read_eq hpmsg)
    trace := Cells.eq_writeSeq htrace_wf _ fun p => (htrace p).trans (messageTrace_getElem? b p).symm }⟩

theorem eq_launched_of_hostExec {p : Params} {b : List Byte} {s t : State} (h : hostExec p (.launch b) s = .next t) :
    t = launched b s := by
  rcases launch_cases p b s with ⟨-, -, -, hnext⟩ | ⟨r, hrefused⟩
  · exact Host.Outcome.next.inj (h.symm.trans hnext)
  · cases h.symm.trans hrefused

/-- Settles O58: a launch forgets the state before it but for the schedule, and every value a run ends with is the message's. -/
theorem runsAreIndependentOfThePast : Obligations.RunsAreIndependentOfThePast := by
  intro p p' b s s' t t' hmoves hmoves' hexec hexec'
  obtain rfl := eq_launched_of_hostExec hexec
  obtain rfl := eq_launched_of_hostExec hexec'
  obtain ⟨u, hruns, hu⟩ := launched_endsRun b hmoves
  obtain ⟨u', hruns', hu'⟩ := launched_endsRun b hmoves'
  exact ⟨u, u', hruns, hruns', hu.ph, hu'.ph, hu.trace.trans hu'.trace.symm, hu.h.trans hu'.h.symm,
    hu.digest.trans hu'.digest.symm, hu.msg.trans hu'.msg.symm, hu.pmsg.trans hu'.pmsg.symm⟩

/-- Settles O59: the three memories read back as the events, the message and its padding. -/
theorem traceValueOfARun : Obligations.TraceValueOfARun := by
  intro b s h hmoves
  obtain ⟨t, hruns, hph, -, -, hevn, hnchunk, -, hmlen, -, hdigest, -, -, -, hpmsg, hmsg⟩ := runComputesTheDigest b s h hmoves
  obtain ⟨t', hruns', htrace⟩ := runLeavesTheMessagesTrace b s h hmoves
  obtain rfl := runs_unique hruns hruns'
  have hlen : t.evn = runLength b := by rw [hevn, hnchunk, runLength]
  have hevents : Cells.readSeq t.trace 0 t.evn = some (messageTrace b) :=
    (Cells.readSeq_eq_some _ _ _ _).mpr
      ⟨by simp [messageTrace, hlen], fun p _ => by rw [Nat.zero_add, htrace, messageTrace_getElem?]⟩
  have hmessage : Cells.readSeq t.msg 0 t.mlen = some b :=
    (Cells.readSeq_eq_some _ _ _ _).mpr ⟨hmlen.symm, fun k _ => by rw [Nat.zero_add, hmsg, h.message]⟩
  refine ⟨t, hruns, ?_⟩
  rw [traceValue, if_pos ((done_iff t).mpr hph), hevents, hmessage, hpmsg, hdigest]
  rfl

end Sys2Proof.Machine
end

section
/-! The operations one by one (44_trace_recorder.md R151 to R159): the next state and the event of each, that each emits once, and
where the sequencer goes. -/

namespace Sys2Proof.Machine

/-! ### The control operations -/

/-- `Fmt` of the initial HashState: the words of `IVROM` count the nibbles up and down, byte by byte (R22, R180). -/
theorem fmt_ivrom : (fmt ivrom).toList = asciiOf "0123456789abcdeffedcba9876543210" := by decide

/-- Settles O8: the hypotheses say that the message reads as `b`, so the effect of PRE is the one on `b`. -/
theorem prePadsTheMessage : Obligations.PrePadsTheMessage := by
  intro s b _ hlen hmsg
  have hb : readMessage s = some b := (readMessage_eq_some s b).mpr ⟨hlen, hmsg⟩
  exact ⟨exec_of_effect (.pre hb), fun hh => hh ▸ fmt_ivrom⟩

/-- `LE32` has no carry: its value is the weighted sum of its bytes (00_scope.md R7). -/
theorem le32_toNat (b0 b1 b2 b3 : Byte) :
    (le32 b0 b1 b2 b3).toNat = b0.toNat + 2 ^ 8 * b1.toNat + 2 ^ 16 * b2.toNat + 2 ^ 24 * b3.toNat :=
  Nat.mod_eq_of_lt (by omega)

/-- Settles O9: the words are those of the 64 bytes that are read. -/
theorem cstLoadsTheChunk : Obligations.CstLoadsTheChunk := by
  intro s bs _ hlen hread
  have hbytes : Cells.readSeq s.pmsg (64 * s.cidx) 64 = some bs := (Cells.readSeq_eq_some _ _ _ _).mpr ⟨hlen, hread⟩
  have hwords : chunkBlock s.pmsg s.cidx = some (decodeBlock bs) := (chunkBlock_eq_some _ _ _).mpr ⟨bs, hbytes, rfl⟩
  refine ⟨decodeBlock bs, fun j hj => ?_, exec_of_effect (.cst hwords)⟩
  rw [decodeBlock, Vector.getElem_ofFn, wordAt, le32_toNat]

/-- The next position as one update (R151). -/
theorem nextChunk_eq (s : State) :
    nextChunk s = { s with
      ph := if s.cidx + 1 < s.nchunk then .cst else .don
      cidx := if s.cidx + 1 < s.nchunk then s.cidx + 1 else 0
      ridx := 0 } := by
  unfold nextChunk
  split <;> rfl

/-- Settles O10: the fold and its event, with the next position as one update. -/
theorem cenFoldsTheChunk : Obligations.CenFoldsTheChunk := by
  intro s _
  show execCen s = _
  rw [execCen_eq, nextChunk_eq]
  rfl

/-- Settles O11: the status bits are `DONE` and `BUSY`, which follow from the new phase. -/
theorem donWritesTheDigest : Obligations.DonWritesTheDigest := by
  intro s _
  refine ⟨_, execDon_eq s, rfl, ?_⟩
  obtain ⟨hbusy, hdone, -⟩ := status_low_bits
    (setPc .halt 0 0 (emit (.done { hash := s.h, digest := fmt s.h }) { s with digest := fmt s.h }))
  exact ⟨hdone, hbusy⟩

/-- In `IDLE` and `HALT` a move of the sequencer changes nothing (R159). -/
theorem engineStep_of_stopped {s : State} (h : s.ph = .idle ∨ s.ph = .halt) : engineStep s = .next s := by
  rcases h with h | h <;> rw [engineStep_eq, h]

/-- Settles O12: both phases select HLT. -/
theorem hltChangesNothing : Obligations.HltChangesNothing := by
  intro s h
  refine ⟨?_, execHlt_eq s, fun hmoves => (step_of_moves_nil hmoves).trans (engineStep_of_stopped h)⟩
  rcases h with h | h <;> rw [decode_fetchCode, h]

/-- Settles O25: the invariant provides every byte that an operation reads. -/
theorem engineNeverFails : Obligations.EngineNeverFails := fun _ h => h.exists_engineStep

/-! ### The events -/

/-- A host command leaves the trace empty (R191, R200, R202). -/
theorem hostExec_trace {p : Params} {c : HostCommand} {s t : State} (h : hostExec p c s = .next t) :
    t.evn = 0 ∧ t.trace = [] := by
  rcases hostExec_next p c s t h with ⟨-, b, -, -, rfl⟩ | ⟨-, e, rfl⟩ | ⟨-, rfl⟩
  · exact ⟨launched_evn b s, launched_trace b s⟩
  · exact ⟨takeException_evn e s, takeException_trace e s⟩
  · exact ⟨idleState_evn s, idleState_trace s⟩

/-- Settles O20: what the operations other than HLT have in common, and the empty trace after a host command. -/
theorem everyOperationEmitsOnce : Obligations.EveryOperationEmitsOnce := by
  refine ⟨fun i s t hi hexec => ?_, fun p c s t hexec => ?_⟩
  · have hemit : Emits s t := (effect_of_exec hexec).emits hi
    obtain ⟨e, htrace⟩ := hemit.trace
    exact ⟨hemit.evn, ⟨e, htrace, htrace ▸ Cells.read_write_self s.trace s.evn e⟩, fun n => hemit.read_trace⟩
  · obtain ⟨hevn, htrace⟩ := hostExec_trace hexec
    exact ⟨hevn, fun n => htrace ▸ Cells.read_nil n⟩

/-- A round index belongs to the family of its range of sixteen (43_round_engine.md R121). -/
theorem familyOf_eq_iff_div (i : BitVec 6) (fam : Family) : familyOf i = fam ↔ i.toNat / 16 = familyCode fam :=
  (owns_iff fam i).symm.trans (by cases fam <;> exact beq_iff_eq)

/-- The strings of a Round event are those of the round's family (10_state.md R23). -/
theorem roundEvent_strings {s : State} {fam : Family} (h : s.ridx.toNat / 16 = familyCode fam) :
    let r := roundEvent s (roundFn s.ridx s.w s.m)
    r.name = (fdescRom fam).name ∧ r.fdesc = (fdescRom fam).fdesc ∧ r.gdesc = (fdescRom fam).gdesc := by
  obtain rfl := (familyOf_eq_iff_div s.ridx fam).mpr h
  exact ⟨rfl, rfl, rfl⟩

/-- Settles O17: the operation is the round of `RIDX`; its event is in the slot that the step wrote and holds the round's values. -/
theorem roundEventRecordsTheRound : Obligations.RoundEventRecordsTheRound := by
  intro s hph i hdec
  rw [fetchCode_of_rnd hph, decode_roundCode] at hdec
  obtain rfl := Except.ok.inj hdec
  refine ⟨_, roundEvent s (roundFn s.ridx s.w s.m), (exec_rndInstr s.ridx s).trans (roundStep_eq _ s), ?_, ?_⟩
  · rw [nextRound_trace]
    exact Cells.read_write_self _ _ _
  · rw [nextRound_w, nextRound_h]
    exact ⟨rfl, rfl, rfl, Nat.succ_pos _, s.ridx.isLt, roundEvent_strings (fam := .F), roundEvent_strings (fam := .G),
      roundEvent_strings (fam := .H), roundEvent_strings (fam := .I), ⟨rfl, rfl, rfl, rfl, rfl, rfl, rfl, rfl, rfl, rfl, rfl⟩,
      rfl, rfl, rfl, rfl, rfl, rfl, rfl, rfl⟩

/-! ### The transfer of control -/

/-- The position of the sequencer (10_state.md R14). -/
def position (s : State) : Phase × Nat × BitVec 6 := (s.ph, s.cidx, s.ridx)

theorem position_eq_iff {s : State} {p : Phase} {c : Nat} {i : BitVec 6} :
    position s = (p, c, i) ↔ s.ph = p ∧ s.cidx = c ∧ s.ridx = i := by
  rw [position, Prod.mk.injEq, Prod.mk.injEq]

/-- The table of R151: the next position from `PH`, `CIDX`, `RIDX` and `NCHUNK`. -/
def nextPosition (ph : Phase) (c : Nat) (i : BitVec 6) (n : Nat) : Phase × Nat × BitVec 6 :=
  match ph with
  | .idle => (.idle, c, i)
  | .pre => (.cst, 0, 0)
  | .cst => (.rnd, c, 0)
  | .rnd => if i.toNat < 63 then (.rnd, c, i + 1) else (.cen, c, 0)
  | .cen => if c + 1 < n then (.cst, c + 1, 0) else (.don, 0, 0)
  | .don => (.halt, 0, 0)
  | .halt => (.halt, c, i)

theorem position_nextRound (s : State) : position (nextRound s) = nextPosition .rnd s.cidx s.ridx s.nchunk := by
  unfold nextRound nextPosition
  split <;> rfl

theorem position_nextChunk (s : State) : position (nextChunk s) = nextPosition .cen s.cidx s.ridx s.nchunk := by
  unfold nextChunk nextPosition
  split <;> rfl

/-- A move of the sequencer goes where the table says. -/
theorem position_of_engineStep {s t : State} (h : engineStep s = .next t) :
    position t = nextPosition s.ph s.cidx s.ridx s.nchunk := by
  rw [engineStep_eq] at h
  cases hph : s.ph with rw [hph] at h
  | idle => cases h; rw [position, hph]; rfl
  | pre =>
    cases effect_of_exec (i := .pre) h with
    | round hfam => cases hfam
    | pre hb => rfl
  | cst =>
    cases effect_of_exec (i := .cst) h with
    | round hfam => cases hfam
    | cst hwords => rfl
  | rnd =>
    cases (roundStep_eq _ s).symm.trans h
    exact position_nextRound _
  | cen =>
    cases (execCen_eq s).symm.trans h
    exact position_nextChunk _
  | don => cases (execDon_eq s).symm.trans h; rfl
  | halt => cases h; rw [position, hph]; rfl

/-- Settles O22: the table row by row; in `IDLE` and `HALT` the sequencer has no move. -/
theorem controlTransferTable : Obligations.ControlTransferTable := by
  intro s t h
  have hpos := position_of_engineStep h
  refine ⟨fun hph => ?pre, fun hph => ?cst, fun hph hlt => ?round, fun hph hlast => ?lastRound, fun hph hlt => ?chunk,
    fun hph hlast => ?lastChunk, fun hph => ?don, fun hph => ?stopped⟩
  case stopped => exact Host.Outcome.next.inj (h.symm.trans (engineStep_of_stopped hph))
  all_goals rw [hph, nextPosition] at hpos
  case pre => exact position_eq_iff.mp hpos
  case cst => exact position_eq_iff.mp hpos
  case don => exact position_eq_iff.mp hpos
  case round =>
    rw [if_pos hlt] at hpos
    obtain ⟨hph', hcidx, hridx⟩ := position_eq_iff.mp hpos
    exact ⟨hph', hcidx, hridx ▸ Nat.mod_eq_of_lt (show s.ridx.toNat + 1 < 2 ^ 6 by omega)⟩
  case lastRound =>
    rw [if_neg (by omega)] at hpos
    exact position_eq_iff.mp hpos
  case chunk =>
    rw [if_pos hlt] at hpos
    exact position_eq_iff.mp hpos
  case lastChunk =>
    rw [if_neg (by omega)] at hpos
    exact position_eq_iff.mp hpos

/-- Settles O23: the table's arguments are the phase, `CIDX`, `RIDX` and `NCHUNK`. -/
theorem dataNeverInfluencesControl : Obligations.DataNeverInfluencesControl := by
  intro s s' t t' hph hcidx hridx hnchunk h h'
  have hpos : position t = position t' := by
    rw [position_of_engineStep h, position_of_engineStep h', hph, hcidx, hridx, hnchunk]
  exact position_eq_iff.mp hpos

end Sys2Proof.Machine
end

section
/-! The Digest Formatter (45_digest_formatter.md R180 to R184): the characters of a digest in terms of the nibbles of the words, and
the parser that takes them back. -/

namespace Sys2Proof.Machine

/-! ### Positions in a run of blocks of one length -/

/-- Element `k` of block `i` lies at `m * i + k` when every block has `m` elements. -/
theorem getElem?_flatMap_of_length {α β : Type} {f : α → List β} {m k : Nat} (hf : ∀ x, (f x).length = m) (hk : k < m)
    (xs : List α) (i : Nat) : (xs.flatMap f)[m * i + k]? = xs[i]?.bind fun x => (f x)[k]? := by
  induction xs generalizing i with
  | nil => rfl
  | cons x xs ih =>
    rw [List.flatMap_cons]
    cases i with
    | zero =>
      rw [Nat.mul_zero, Nat.zero_add, List.getElem?_append_left (by rw [hf]; exact hk)]
      rfl
    | succ i =>
      have hpos : m * (i + 1) + k = m + (m * i + k) := by ring
      rw [hpos, List.getElem?_append_right (by rw [hf]; exact Nat.le_add_right _ _), hf, Nat.add_sub_cancel_left, ih]
      rfl

/-! ### The bytes of the four words -/

/-- `LEbytes` (R7) byte by byte. -/
theorem getElem?_leBytes {n k : Nat} (hk : k < n) (v : Nat) :
    (leBytes n v)[k]? = some (BitVec.ofNat 8 (v / 2 ^ (8 * k) % 256)) := by
  induction n generalizing k v with
  | zero => cases hk
  | succ n ih =>
    cases k with
    | zero => simp [leBytes]
    | succ k =>
      have hdiv : v / 256 / 2 ^ (8 * k) = v / 2 ^ (8 * (k + 1)) := by
        rw [Nat.div_div_eq_div_mul, Nat.mul_succ, Nat.pow_add']
      rw [leBytes, List.getElem?_cons_succ, ih (Nat.lt_of_succ_lt_succ hk), hdiv]

theorem quadBytes_eq_flatMap (q : Quad) : quadBytes q = [q.a, q.b, q.c, q.d].flatMap wordBytes := by
  simp [quadBytes]

/-- Byte `4w + k` is bits `8k+7:8k` of word `w` (R180). -/
theorem getElem?_quadBytes {q : Quad} {i k : Nat} {w : Word} (hw : [q.a, q.b, q.c, q.d][i]? = some w) (hk : k < 4) :
    (quadBytes q)[4 * i + k]? = some (BitVec.ofNat 8 (w.toNat / 2 ^ (8 * k) % 256)) := by
  rw [quadBytes_eq_flatMap, getElem?_flatMap_of_length wordBytes_length hk, hw]
  exact getElem?_leBytes hk w.toNat

/-! ### Digits and pairs -/

@[simp] theorem hexPair_length (b : Byte) : (hexPair b).length = 2 := rfl

/-- `hexdigit` by the string of R180. -/
theorem hexDigit_eq_getElem? (v : BitVec 4) : some (hexDigit v) = (asciiOf "0123456789abcdef")[v.toNat]? := by
  revert v; decide

/-- A digit is one of `0-9`, `a-f` in ASCII. -/
theorem hexDigit_range (v : BitVec 4) :
    (0x30 ≤ (hexDigit v).toNat ∧ (hexDigit v).toNat ≤ 0x39) ∨ (0x61 ≤ (hexDigit v).toNat ∧ (hexDigit v).toNat ≤ 0x66) := by
  revert v; decide

/-- `hv` of R93 inverts `hexdigit` of R180. -/
theorem hexValue_hexDigit (v : BitVec 4) : hexValue (hexDigit v).toNat = some v.toNat := by
  revert v; decide

/-- `hexDigit_eq_getElem?` on a number below 16. -/
theorem hexDigit_ofNat {v : Nat} (h : v < 16) :
    some (hexDigit (BitVec.ofNat 4 v)) = (asciiOf "0123456789abcdef")[v]? := by
  rw [hexDigit_eq_getElem?, BitVec.toNat_ofNat, Nat.mod_eq_of_lt h]

theorem parsePairs_hexPair_append (b : Byte) (chars : List Byte) :
    parsePairs (hexPair b ++ chars) = (parsePairs chars).map (b :: ·) := by
  have hb : b.toNat < 256 := b.isLt
  have hjoin : BitVec.ofNat 8 (16 * (b.toNat / 16 % 2 ^ 4) + b.toNat % 16 % 2 ^ 4) = b := by
    rw [show 16 * (b.toNat / 16 % 2 ^ 4) + b.toNat % 16 % 2 ^ 4 = b.toNat by omega, BitVec.ofNat_toNat, BitVec.setWidth_eq]
  simp only [hexPair, List.cons_append, List.nil_append, parsePairs, hexValue_hexDigit, BitVec.toNat_ofNat]
  cases parsePairs chars with
  | none => rfl
  | some bs => exact congrArg (fun x => some (x :: bs)) hjoin

/-- The parser takes the pairs of any bytes back to the bytes. -/
theorem parsePairs_flatMap_hexPair (bs : List Byte) : parsePairs (bs.flatMap hexPair) = some bs := by
  induction bs with
  | nil => rfl
  | cons b bs ih => rw [List.flatMap_cons, parsePairs_hexPair_append, ih]; rfl

/-! ### The characters of a digest -/

theorem toList_fmt (q : Quad) : (fmt q).toList = (quadBytes q).flatMap hexPair := rfl

/-- Characters `2n` and `2n + 1` are the high and the low nibble of byte `n` (R180). -/
theorem getElem?_fmt {q : Quad} {n v : Nat} (hv : v < 256) (hbyte : (quadBytes q)[n]? = some (BitVec.ofNat 8 v)) :
    (fmt q).toList[2 * n]? = (asciiOf "0123456789abcdef")[v / 16]? ∧
    (fmt q).toList[2 * n + 1]? = (asciiOf "0123456789abcdef")[v % 16]? := by
  have hval : (BitVec.ofNat 8 v).toNat = v := Nat.mod_eq_of_lt hv
  have hpair (k : Nat) (hk : k < 2) : (fmt q).toList[2 * n + k]? = (hexPair (BitVec.ofNat 8 v))[k]? := by
    rw [toList_fmt, getElem?_flatMap_of_length hexPair_length hk, hbyte, Option.bind_some]
  rw [← hexDigit_ofNat (by omega : v / 16 < 16), ← hexDigit_ofNat (by omega : v % 16 < 16)]
  constructor
  · simpa [hexPair, hval] using hpair 0 (by decide)
  · simpa [hexPair, hval] using hpair 1 (by decide)

theorem mem_fmt_range {q : Quad} {ch : Byte} (h : ch ∈ (fmt q).toList) :
    (0x30 ≤ ch.toNat ∧ ch.toNat ≤ 0x39) ∨ (0x61 ≤ ch.toNat ∧ ch.toNat ≤ 0x66) := by
  obtain ⟨b, -, hch⟩ := List.mem_flatMap.mp (toList_fmt q ▸ h)
  obtain rfl | rfl : ch = _ ∨ ch = _ := by simpa [hexPair] using hch
  · exact hexDigit_range _
  · exact hexDigit_range _

/-- Settles O36: word `w` gives byte `4w + k`, and that byte its two characters. -/
theorem digestCharacters : Obligations.DigestCharacters := by
  intro q w k word byte digits n
  have hword : [q.a, q.b, q.c, q.d][w.val]? = some word := by fin_cases w <;> rfl
  obtain ⟨hhigh, hlow⟩ := getElem?_fmt (Nat.mod_lt _ (by decide)) (getElem?_quadBytes hword k.isLt)
  exact ⟨hhigh, hlow, (fmt q).length_toList, fun _ => mem_fmt_range⟩

/-! ### The round trip -/

/-- `LE32` of the bytes at `4j` is the 32-bit field there. -/
theorem wordAt_eq_fieldWord (bs : List Byte) (j : Nat) : wordAt bs j = fieldWord bs (4 * j) := by
  rw [fieldWord, ← wordAt_toNat, BitVec.ofNat_toNat, BitVec.setWidth_eq]

/-- `Parse(Fmt(h)) = h` (R184): the pairs give the sixteen bytes, and each word's four bytes give the word. -/
theorem parseDigest_fmt (q : Quad) : parseDigest (fmt q) = some q := by
  have hbytes : parsePairs (fmt q).toList = some (quadBytes q) := parsePairs_flatMap_hexPair (quadBytes q)
  calc parseDigest (fmt q)
      = some ⟨wordAt (quadBytes q) 0, wordAt (quadBytes q) 1, wordAt (quadBytes q) 2, wordAt (quadBytes q) 3⟩ := by
        rw [parseDigest, hbytes]
        rfl
    _ = some (fieldQuad (quadBytes q) 0) := by
        simp only [wordAt_eq_fieldWord]
        rfl
    _ = some q := by rw [fieldQuad_quadBytes]

theorem fmt_injective : Function.Injective fmt := fun q q' h =>
  Option.some.inj (by rw [← parseDigest_fmt q, h, parseDigest_fmt q'])

/-- Settles O37: what has a parser is injective. -/
theorem digestRoundTrip : Obligations.DigestRoundTrip :=
  ⟨parseDigest_fmt, fun _ _ h => fmt_injective h⟩

end Sys2Proof.Machine
end

section
/-! A busy engine left to itself (60_exceptions.md R203): by `EVN` (10_state.md R15) it is inside a run, and every step of a run emits
one of its events. -/

namespace Sys2Proof.Machine

/-- A busy engine has not written the last event of its run. -/
theorem InRun.evn_lt {len : Nat} {s : State} (h : InRun len s) (hb : Machine.busy s = true) :
    s.evn < 2 + 66 * chunkCountOf len := by
  have hev := h.inv.events
  have hchunk := h.inv.chunkIndex
  have hn := h.nchunk
  cases hph : s.ph with simp only [eventCount, inChunk, padded, hph, if_true, forall_const] at hev hchunk hn
  | idle => exact absurd hph h.started
  | rnd =>
    have := s.ridx.isLt
    omega
  | halt => simp [Machine.busy, hph] at hb
  | pre => omega
  | cst => omega
  | cen => omega
  | don => omega

/-- Settles O54: one step for each event the run has still to write, after which `EVN` says `HALT`. -/
theorem everyRunReachesHalt : Obligations.EveryRunReachesHalt := by
  intro s hinv hmoves hbusy
  have hrun : InRun s.mlen s := ⟨hinv, hmoves, fun hph => by simp [busy, hph] at hbusy, rfl⟩
  have hlt := hrun.evn_lt hbusy
  obtain ⟨k, hk⟩ := Nat.exists_eq_add_of_lt hlt
  obtain ⟨t, hruns, ht, hevn⟩ := hrun.runs (k := k + 1) (by omega)
  exact ⟨k + 1, t, by omega, by omega, hruns, ht.halted (by omega)⟩

end Sys2Proof.Machine
end

section
/-! The host's commands (60_exceptions.md R191, R200 to R202): the equations of `Launch` and `LaunchText`, and the states they lead
to. -/

namespace Sys2Proof.Machine

theorem busy_eq_false_iff (s : State) : busy s = false ↔ s.ph = .idle ∨ s.ph = .halt := by
  unfold busy
  cases s.ph <;> decide

/-! ### Launch -/

theorem withinCap_iff (cap : Option Nat) (n : Nat) : withinCap cap n = true ↔ ∀ c, cap = some c → n ≤ c := by
  cases cap <;> simp [withinCap]

theorem launch_of_busy {s : State} (h : busy s = true) (p : Params) (b : List Byte) :
    launch p b s = .refused .launchWhileBusy := by
  rw [launch, if_pos h]

theorem launch_eq_next {p : Params} {b : List Byte} {s : State} (hquiet : busy s = false)
    (hlen : withinCap p.maxLen b.length = true) (hcap : withinCap p.traceCap (eventsNeeded b.length) = true) :
    launch p b s = .next (launched b s) := by
  simp [launch, hquiet, hlen, hcap]

/-- Settles O43: the three checks of `launch` are the three preconditions. -/
theorem launchStartsOrIsRefused : Obligations.LaunchStartsOrIsRefused := by
  intro p b s ok
  have hok : ok ↔ busy s = false ∧ withinCap p.maxLen b.length = true ∧ withinCap p.traceCap (eventsNeeded b.length) = true := by
    rw [busy_eq_false_iff, withinCap_iff, withinCap_iff]
    rfl
  constructor
  case left =>
    intro h
    obtain ⟨hquiet, hlen, hcap⟩ := hok.mp h
    exact ⟨launched b s, launch_eq_next hquiet hlen hcap, launched_premises b s, launched_inv b s, launched_moves b s⟩
  case right =>
    intro h
    rcases launch_cases p b s with ⟨hquiet, hlen, hcap, -⟩ | hrefused
    · exact absurd (hok.mpr ⟨hquiet, hlen, hcap⟩) h
    · exact hrefused

/-! ### LaunchText -/

section
variable {p : Params} {text : List Nat} {mode : Nat} {md : Mode} {s : State}

theorem launchText_of_busy (h : busy s = true) : launchText p text mode s = .refused .launchWhileBusy := by
  rw [launchText, if_pos h]

/-- On success `LaunchText` is the launch of the normalized bytes, refused while BUSY as that launch is. -/
theorem launchText_eq_launch {b : List Byte} (hmode : Mode.decode mode = some md) (hdom : inDomain text md = true)
    (hnorm : normalizeText p text md = .ok b) : launchText p text mode s = launch p b s := by
  cases hb : busy s with
  | true => rw [launchText_of_busy hb, launch_of_busy hb]
  | false => simp [launchText, hb, hmode, hdom, hnorm]

/-- `LaunchText` takes the exception that the normalizer raises. -/
theorem launchText_eq_takeException {e : HwException} (hquiet : busy s = false) (hmode : Mode.decode mode = some md)
    (hdom : inDomain text md = true) (hnorm : normalizeText p text md = .error e) :
    launchText p text mode s = .next (takeException e s) := by
  simp [launchText, hquiet, hmode, hdom, hnorm]

/-- A mode that is none, or a text outside the mode's domain, is refused in every phase. -/
theorem launchText_refused (h : ∀ md, Mode.decode mode = some md → inDomain text md = false) :
    ∃ r, launchText p text mode s = .refused r := by
  cases hb : busy s with
  | true => exact ⟨_, launchText_of_busy hb⟩
  | false =>
    cases hmode : Mode.decode mode with
    | none => exact ⟨.noSuchMode, by simp [launchText, hb, hmode]⟩
    | some md => exact ⟨.notScalarValue, by simp [launchText, hb, hmode, h md hmode]⟩

end

theorem Mode.decode_eq_none {mode : Nat} (h : 2 ≤ mode) : Mode.decode mode = none := by
  match mode, h with
  | _ + 2, _ => rfl

/-- Settles O45: the text mode's normalizer never fails, and each refusal is one of `launchText_refused` or of a busy engine. -/
theorem launchTextNormalizesThenLaunches : Obligations.LaunchTextNormalizesThenLaunches := by
  intro p text s
  simp only [hostExec]
  refine ⟨fun hscalar => ?_, fun b hnorm => ?_, fun hbad => ?_, fun mode hmode => ?_, fun hbusy mode => launchText_of_busy hbusy⟩
  case refine_1 => exact launchText_eq_launch (md := .text) rfl (List.all_eq_true.mpr hscalar) (normalizeText_text p text)
  case refine_2 => exact launchText_eq_launch (md := .hex) rfl rfl hnorm
  case refine_3 =>
    refine launchText_refused fun md hmd => ?_
    cases hmd
    simpa [inDomain] using hbad
  case refine_4 =>
    refine launchText_refused fun md hmd => ?_
    cases (Mode.decode_eq_none hmode).symm.trans hmd

/-- In a state without events every trace slot is out of range. -/
theorem hostRead_trace_of_evn_eq_zero {s : State} (h : s.evn = 0) (n : Nat) :
    hostRead (.trace n) s = .error .readOutOfRange := by
  rw [hostRead, if_neg (by omega), elementWhenDone_none]

/-- Settles O44: the state is the one `takeException` gives. -/
theorem invalidHexInputEntry : Obligations.InvalidHexInputEntry := by
  intro p text s hph hnorm
  have hnext := launchText_eq_takeException (mode := 1) ((busy_eq_false_iff s).mpr hph) rfl rfl hnorm
  exact ⟨takeException .invalidHexInput s, hnext, rfl, rfl, rfl, rfl, rfl, rfl, rfl, rfl, rfl, rfl, rfl, rfl, rfl, rfl,
    takeException_inv _ s, hostRead_trace_of_evn_eq_zero rfl⟩

/-- Settles O46: the state is `idleState`, whatever the phase. -/
theorem resetCommandGivesTheResetState : Obligations.ResetCommandGivesTheResetState := fun _ s =>
  ⟨idleState s, rfl, rfl, rfl, rfl, rfl, rfl, rfl, rfl, rfl, rfl, rfl, rfl, rfl, rfl, idleState_inv s⟩

end Sys2Proof.Machine
end

section
/-! The host's reads (60_exceptions.md R203, R204): the phase a read needs, which is where a read that succeeds can come from, and
the value of each read in a phase that allows it. -/

namespace Sys2Proof.Machine

/-! ### The phase a read needs -/

section
variable {s : State} {v x : HostValue}

theorem done_of_whenDone (h : whenDone s v = .ok x) : done s = true := by
  rw [whenDone] at h
  split at h
  case isTrue hdone => exact hdone
  case isFalse => cases h

theorem quiet_of_whenQuiet (h : whenQuiet s v = .ok x) : busy s = false := by
  rw [whenQuiet] at h
  split at h
  case isTrue => cases h
  case isFalse hbusy => exact Bool.eq_false_iff.mpr hbusy

theorem done_of_elementWhenDone {o : Option HostValue} (h : elementWhenDone s o = .ok x) : done s = true := by
  cases o with
  | none => cases h
  | some y => exact done_of_whenDone h

theorem quiet_of_done (h : done s = true) : busy s = false :=
  Bool.eq_false_iff.mpr fun hb => not_busy_and_done s ⟨hb, h⟩

/-- A read of one of the four ROM spaces (20_memory.md R44). -/
def IsRomRead (r : HostRead) : Prop := ∃ k, r = .krom k ∨ r = .srom k ∨ r = .ivrom k ∨ r = .fdesc k

/-- A ROM read that answers names an entry, and those answer in a quiescent engine only (R204). -/
theorem quiet_of_romRead {r : HostRead} (hr : IsRomRead r) (h : hostRead r s = .ok x) : busy s = false := by
  obtain ⟨k, rfl | rfl | rfl | rfl⟩ := hr
  · simp only [hostRead] at h
    split at h
    · exact quiet_of_whenQuiet h
    · cases h
  · simp only [hostRead] at h
    split at h
    · exact quiet_of_whenQuiet h
    · cases h
  · simp only [hostRead] at h
    split at h
    · cases h
    · exact quiet_of_whenQuiet h
  · simp only [hostRead] at h
    split at h
    · cases h
    · exact quiet_of_whenQuiet h

/-- A register that answers is one of the first seven, or one of `H` in a quiescent engine, or the run is over. -/
theorem readRegister_ok {n : Nat} (h : readRegister n s = .ok x) :
    n ≤ 6 ∨ ((9 ≤ n ∧ n ≤ 12) ∧ busy s = false) ∨ done s = true := by
  refine or_iff_not_imp_left.mpr fun hlow => ?_
  unfold readRegister at h
  iterate 7 rw [if_neg (by omega)] at h
  split at h
  · exact .inr (done_of_whenDone h)
  split at h
  · exact .inr (done_of_whenDone h)
  split at h
  · split at h
    · cases h
    · exact .inl ⟨by omega, quiet_of_whenQuiet h⟩
  split at h
  · exact .inr (done_of_elementWhenDone h)
  split at h
  · exact .inr (done_of_elementWhenDone h)
  split at h
  · exact .inr (done_of_whenDone h)
  · cases h

/-- A read that answers is of registers 0 to 6, or of `H` or a ROM in a quiescent engine, or the run is over (R203, R204). -/
theorem hostRead_ok {r : HostRead} (h : hostRead r s = .ok x) :
    (∃ n, n ≤ 6 ∧ r = .register n) ∨ (busy s = false ∧ ((∃ n, (9 ≤ n ∧ n ≤ 12) ∧ r = .register n) ∨ IsRomRead r)) ∨
      done s = true := by
  have rom (hr : IsRomRead r) := quiet_of_romRead hr h
  cases r with
  | register n =>
    rcases readRegister_ok h with hn | ⟨hn, hquiet⟩ | hdone
    · exact .inl ⟨n, hn, rfl⟩
    · exact .inr (.inl ⟨hquiet, .inl ⟨n, hn, rfl⟩⟩)
    · exact .inr (.inr hdone)
  | msg k => exact .inr (.inr (done_of_elementWhenDone h))
  | pmsg k => exact .inr (.inr (done_of_elementWhenDone h))
  | trace n => exact .inr (.inr (done_of_elementWhenDone h))
  | chunkByte c k => exact .inr (.inr (done_of_elementWhenDone h))
  | chunkWord c j => exact .inr (.inr (done_of_elementWhenDone h))
  | krom i => exact .inr (.inl ⟨rom ⟨i, .inl rfl⟩, .inr ⟨i, .inl rfl⟩⟩)
  | srom i => exact .inr (.inl ⟨rom ⟨i, .inr (.inl rfl)⟩, .inr ⟨i, .inr (.inl rfl)⟩⟩)
  | ivrom k => exact .inr (.inl ⟨rom ⟨k, .inr (.inr (.inl rfl))⟩, .inr ⟨k, .inr (.inr (.inl rfl))⟩⟩)
  | fdesc k => exact .inr (.inl ⟨rom ⟨k, .inr (.inr (.inr rfl))⟩, .inr ⟨k, .inr (.inr (.inr rfl))⟩⟩)

/-! ### The registers -/

/-- Registers 9 to 12 of a quiescent engine (10_state.md R24). -/
theorem readRegister_h (hquiet : busy s = false) :
    readRegister 9 s = .ok (.word s.h.a) ∧ readRegister 10 s = .ok (.word s.h.b) ∧
    readRegister 11 s = .ok (.word s.h.c) ∧ readRegister 12 s = .ok (.word s.h.d) := by
  simp [readRegister, quadGet, whenQuiet, hquiet]

/-- Registers 0 to 6 answer in every phase. -/
theorem readRegister_low {n : Nat} (hn : n ≤ 6) : ∃ v, readRegister n s = .ok v := by
  interval_cases n <;> exact ⟨_, rfl⟩

end

/-- Settles O49: the bounds are those of `hostRead_ok`. -/
theorem readsBeforeDoneAreLimited : Obligations.ReadsBeforeDoneAreLimited := by
  intro s
  refine ⟨fun n hn => readRegister_low hn, fun hbusy r v h => ?_, fun hidle r v h => ?_, fun hidle => ?_⟩
  case refine_1 =>
    rcases hostRead_ok h with hlow | ⟨hquiet, -⟩ | hdone
    · exact hlow
    · cases hbusy.symm.trans hquiet
    · exact absurd ⟨hbusy, hdone⟩ (not_busy_and_done s)
  case refine_2 =>
    obtain ⟨-, hnotDone⟩ := (idle_iff s).mpr hidle
    rcases hostRead_ok h with ⟨n, hn, hr⟩ | ⟨-, ⟨n, hn, hr⟩ | hrom⟩ | hdone
    · exact .inl ⟨n, .inl hn, hr⟩
    · exact .inl ⟨n, .inr hn, hr⟩
    · exact .inr hrom
    · cases hnotDone.symm.trans hdone
  case refine_3 =>
    obtain ⟨hquiet, -⟩ := (idle_iff s).mpr hidle
    obtain ⟨ha, hb, hc, hd⟩ := readRegister_h hquiet
    exact ⟨ha, hb, hc, hd, romsReadable_of_quiet s hquiet⟩

/-! ### After `DONE` -/

section
variable {s : State}

/-- Registers 7, 8 and 33 when the run is over (R24). -/
theorem readRegister_whenDone (hdone : done s = true) :
    readRegister 7 s = .ok (.count s.plen) ∧ readRegister 8 s = .ok (.count s.nchunk) ∧
    readRegister 33 s = .ok (.text s.digest) := by
  simp [readRegister, whenDone, hdone]

/-- Registers 13 to 16 when the run is over. -/
theorem readRegister_w (hdone : done s = true) :
    readRegister 13 s = .ok (.word s.w.a) ∧ readRegister 14 s = .ok (.word s.w.b) ∧
    readRegister 15 s = .ok (.word s.w.c) ∧ readRegister 16 s = .ok (.word s.w.d) := by
  simp [readRegister, quadGet, elementWhenDone_some, hdone]

/-- Registers 17 to 32 when the run is over. -/
theorem readRegister_m (hdone : done s = true) {j : Nat} (hj : j < 16) : readRegister (17 + j) s = .ok (.word s.m[j]) := by
  unfold readRegister
  iterate 11 rw [if_neg (by omega)]
  rw [if_pos (by omega), Nat.add_sub_cancel_left, blockGet, Vector.getElem?_eq_getElem hj, Option.map_some, elementWhenDone_some,
    if_pos hdone]

/-- There is no register above 33. -/
theorem readRegister_of_ge {n : Nat} (hn : 34 ≤ n) : readRegister n s = .error .readOutOfRange := by
  unfold readRegister
  iterate 13 rw [if_neg (by omega)]

/-- A space that covers `n` is read below `n` and nowhere else. -/
theorem elementWhenDone_of_covers {α : Type} {m : Cells α} {n : Nat} (hcovers : Cells.Covers m n) (hdone : done s = true)
    (mk : α → HostValue) (k : Nat) :
    (k < n → ∃ v, Cells.read m k = some v ∧
      elementWhenDone s (if k < n then (Cells.read m k).map mk else none) = .ok (mk v)) ∧
    (n ≤ k → ∃ r, elementWhenDone s (if k < n then (Cells.read m k).map mk else none) = .error r) := by
  constructor
  · intro hk
    obtain ⟨v, hv⟩ := Option.isSome_iff_exists.mp ((hcovers k).mpr hk)
    exact ⟨v, hv, by rw [if_pos hk, hv, Option.map_some, elementWhenDone_some, if_pos hdone]⟩
  · intro hk
    exact ⟨_, by rw [if_neg hk.not_gt, elementWhenDone_none]⟩

/-- Every chunk below `NCHUNK` can be read from `PMSG` (42_chunk_splitter.md R112). -/
theorem Inv.exists_chunkBlock (h : Inv s) {c : Nat} (hc : c < s.nchunk) : ∃ m, chunkBlock s.pmsg c = some m := by
  obtain ⟨hplen, -⟩ := h.geometry
  obtain ⟨bs, hbs⟩ := Option.isSome_iff_exists.mp (h.pmsgRange.readSeq_isSome (k := 64 * c) (len := 64) (by omega))
  exact ⟨_, (chunkBlock_eq_some _ _ _).mpr ⟨bs, hbs, rfl⟩⟩

/-- The bytes of the chunks below `NCHUNK` when the run is over. -/
theorem hostRead_chunkByte (h : Inv s) (hdone : done s = true) (c k : Nat) :
    (c < s.nchunk → k < 64 →
      ∃ v, Cells.read s.pmsg (64 * c + k) = some v ∧ hostRead (.chunkByte c k) s = .ok (.byte v)) ∧
    (¬ (c < s.nchunk ∧ k < 64) → ∃ r, hostRead (.chunkByte c k) s = .error r) := by
  constructor
  · intro hc hk
    obtain ⟨hplen, -⟩ := h.geometry
    obtain ⟨v, hv⟩ := Option.isSome_iff_exists.mp ((h.pmsgRange (64 * c + k)).mpr (by omega))
    exact ⟨v, hv, by rw [hostRead, if_pos ⟨hc, hk⟩, hv, Option.map_some, elementWhenDone_some, if_pos hdone]⟩
  · intro hout
    exact ⟨_, by rw [hostRead, if_neg hout, elementWhenDone_none]⟩

/-- The words of the chunks below `NCHUNK` when the run is over. -/
theorem hostRead_chunkWord (h : Inv s) (hdone : done s = true) (c j : Nat) :
    (c < s.nchunk → ∀ hj : j < 16,
      ∃ m, chunkBlock s.pmsg c = some m ∧ hostRead (.chunkWord c j) s = .ok (.word m[j])) ∧
    (¬ (c < s.nchunk ∧ j < 16) → ∃ r, hostRead (.chunkWord c j) s = .error r) := by
  constructor
  · intro hc hj
    obtain ⟨m, hm⟩ := h.exists_chunkBlock hc
    refine ⟨m, hm, ?_⟩
    rw [hostRead, if_pos ⟨hc, hj⟩, hm, Option.bind_some, blockGet, Vector.getElem?_eq_getElem hj, Option.map_some,
      elementWhenDone_some, if_pos hdone]
  · intro hout
    exact ⟨_, by rw [hostRead, if_neg hout, elementWhenDone_none]⟩

/-- The always-readable registers in `HALT`: a finished run left `STATUS = 2` and the position `(HALT, 0, 0)` (R17, R214). -/
theorem Inv.readRegister_low_at_halt (h : Inv s) (hph : s.ph = .halt) :
    readRegister 0 s = .ok (.word 0x2) ∧ readRegister 1 s = .ok (.phase 6) ∧ readRegister 2 s = .ok (.count 0) ∧
    readRegister 3 s = .ok (.index 0) ∧ readRegister 4 s = .ok (.code 0x04) ∧ readRegister 5 s = .ok (.count s.evn) ∧
    readRegister 6 s = .ok (.count s.mlen) := by
  have herr : s.err = false := h.err_eq_false (by rw [hph]; nofun)
  have hcidx : s.cidx = 0 := by simpa [inChunk, hph] using h.chunkIndex
  have hridx : s.ridx = 0 := h.roundIndex (by rw [hph]; nofun)
  have hstatus : status s = 0x2 := by simp [status, busy, done, hph, herr]
  simp [readRegister, hstatus, phaseCode, stepCode, hph, hcidx, hridx]

end

/-- Settles O50: `HALT` is done and quiescent, so each read answers its element, which exists by the ranges of the invariant. -/
theorem readsAfterDone : Obligations.ReadsAfterDone := by
  intro s h hph
  have hdone : done s = true := (done_iff s).mpr hph
  have hquiet : busy s = false := quiet_of_done hdone
  obtain ⟨h0, h1, h2, h3, h4, h5, h6⟩ := h.readRegister_low_at_halt hph
  obtain ⟨h7, h8, h33⟩ := readRegister_whenDone hdone
  exact ⟨⟨h0, h1, h2, h3, h4, h5, h6, h7, h8⟩, readRegister_h hquiet, readRegister_w hdone, fun _ hj => readRegister_m hdone hj,
    h33, fun _ hn => ⟨_, readRegister_of_ge hn⟩, elementWhenDone_of_covers h.msgRange hdone .byte,
    elementWhenDone_of_covers h.pmsgRange hdone .byte, elementWhenDone_of_covers h.traceRange hdone .event,
    hostRead_chunkByte h hdone, hostRead_chunkWord h hdone, romsReadable_of_quiet s hquiet⟩

end Sys2Proof.Machine
end
